-- ==== Sys2Proof/Word.lean ====
section
/-! DEFINITION. The word types of the machine (spec/00_scope.md R6, R8; spec/10_state.md R20, R26, R30). -/

namespace Sys2Proof

/-- A general register and a byte of memory: 8 bits, unsigned (10_state R20, R33). -/
abbrev Byte := BitVec 8

/-- An instruction word, the program counter and a call-stack entry: 16 bits (30_encoding R70, 10_state R26, R30). -/
abbrev Word := BitVec 16

/-- A nibble of an instruction word: a register index, or the index of a call-stack entry (30_encoding R74, D15). -/
abbrev Nibble := BitVec 4

/-- A memory address: 12 bits (20_memory R50). -/
abbrev Addr := BitVec 12

end Sys2Proof
end

