-- ==== Sys2Proof/Machine/Flags.lean ====
section
/-! DEFINITION. The alu and the one flag of this hardware, the unsigned carry (spec/41_alu.md R140, R142). -/

namespace Sys2Proof.Machine

/-- The 9-bit sum `s9`, 0 to 510 (41_alu R140). -/
def aluSum9 (a b : Byte) : BitVec 9 :=
  a.setWidth 9 + b.setWidth 9

/-- `sum = s9[7:0]` (41_alu R140). -/
def aluSum (a b : Byte) : Byte :=
  (aluSum9 a b).extractLsb' 0 8

/-- `carry = s9[8]` (41_alu R140). -/
def aluCarry (a b : Byte) : BitVec 1 :=
  (aluSum9 a b).extractLsb' 8 1

/-- A 1-bit flag as the byte register 15 takes, `zext_8` (10_state R24, 41_alu R141). -/
def flagByte (carry : BitVec 1) : Byte :=
  carry.setWidth 8

end Sys2Proof.Machine
end

