-- ==== Sys2Proof/Syntax.lean ====
section
/-! DEFINITION. The instructions: one constructor per row of spec/opcode_table.json (spec/00_scope.md R2). -/

namespace Sys2Proof

/-- One instruction. The fields are exactly the operands of spec/30_encoding.md R73 and R74. -/
inductive Instr where
  /-- HALT, word 0x0000 (40_cycle R108). -/
  | halt
  /-- RETURN, word 0x00EE (42_stack R164). -/
  | ret
  /-- CALL nnn, word 0x2nnn (42_stack R163). -/
  | call (nnn : Addr)
  /-- ADD Vx, Vy, word 0x8xy4; x is the destination and first source (41_alu R141). -/
  | add (x y : Nibble)
  /-- UNIMPLEMENTED, the table's default row: any word no other row matches, kept whole (40_cycle R109). -/
  | unimplemented (w : Word)
  deriving DecidableEq, Repr

end Sys2Proof
end

