-- ==== Sys2Proof/WellFormed.lean ====
section
/-! DEFINITION. Well-formed instructions, read off the masks and patterns of spec/opcode_table.json (not off the decoder,
so that the two can be compared). Register indices and addresses are in range by their width (spec/30_encoding.md R74):
the one check left is that an `unimplemented` word matches no row of the table. -/

namespace Sys2Proof

/-- A row of spec/opcode_table.json: its mnemonic, its mask and the value of the masked bits. -/
structure OpcodeRow where
  mnemonic : String
  mask     : Word
  pattern  : Word
  deriving DecidableEq, Repr

/-- The four rows with a pattern, in the table's order; its fifth row is the default. -/
def opcodeRows : List OpcodeRow :=
  [⟨"HALT", 0xFFFF, 0x0000⟩, ⟨"RETURN", 0xFFFF, 0x00EE⟩, ⟨"CALL", 0xF000, 0x2000⟩, ⟨"ADD", 0xF00F, 0x8004⟩]

/-- A row matches a word when the masked bits are the pattern. -/
def OpcodeRow.covers (r : OpcodeRow) (w : Word) : Bool :=
  w &&& r.mask == r.pattern

/-- Some row with a pattern matches the word. -/
def definedWord (w : Word) : Bool :=
  opcodeRows.any fun r => r.covers w

/-- The check: an `unimplemented` carries a word that no row with a pattern matches (opcode_table.json, row
UNIMPLEMENTED: "it matches a word only when no row above matches it"). -/
def Instr.wellFormed : Instr → Bool
  | .halt => true
  | .ret => true
  | .call _ => true
  | .add _ _ => true
  | .unimplemented w => !definedWord w

end Sys2Proof
end

