-- ==== Sys2Proof/Decode.lean ====
section
/-! DEFINITION. The instruction_decoder (spec/30_encoding.md R71, R72, R75), and after it the encoder (R81) and the
assembler spelling (R80). -/

namespace Sys2Proof

/-! ## Fields and op tag -/

/-- The six fields of the single format (30_encoding R71, the decoder's field ports in R72). -/
structure Fields where
  c   : Nibble
  x   : Nibble
  y   : Nibble
  d   : Nibble
  nnn : Addr
  kk  : Byte
  deriving DecidableEq, Repr

/-- The field split: every field is computed for every word (30_encoding R71). -/
def fields (w : Word) : Fields where
  c   := w.extractLsb' 12 4
  x   := w.extractLsb' 8 4
  y   := w.extractLsb' 4 4
  d   := w.extractLsb' 0 4
  nnn := w.extractLsb' 0 12
  kk  := w.extractLsb' 0 8

/-- The op tag (30_encoding R72, R75). -/
inductive OpTag where
  | unimpl
  | halt
  | ret
  | call
  | add
  deriving DecidableEq, Repr

/-- The op tag as the decoder's 3-bit port drives it; 5–7 are never produced (30_encoding R72). -/
def OpTag.code : OpTag → BitVec 3
  | .unimpl => 0
  | .halt => 1
  | .ret => 2
  | .call => 3
  | .add => 4

/-- The op tag of a word: the patterns of 30_encoding R75 in its order. -/
def opTag (w : Word) : OpTag :=
  if w = 0x0000 then .halt
  else if w = 0x00EE then .ret
  else if (fields w).c = 0x2 then .call
  else if (fields w).c = 0x8 ∧ (fields w).d = 0x4 then .add
  else .unimpl

/-! ## Decoding -/

/-- The instruction a word stands for: total, with no decode error (30_encoding R72, R78). -/
def decode (w : Word) : Instr :=
  match opTag w with
  | .halt => .halt
  | .ret => .ret
  | .call => .call (fields w).nnn
  | .add => .add (fields w).x (fields w).y
  | .unimpl => .unimplemented w

/-- Why a list of bytes holds no instruction. Not a decode error of the machine, which has none (30_encoding R78):
the fetch always supplies two bytes. -/
inductive DecodeError where
  /-- Fewer than the two bytes of an instruction are there (30_encoding R70). -/
  | truncated
  deriving DecidableEq, Repr

/-- Two bytes as a word, the high byte first (20_memory R51). -/
def wordOfBytes (hi lo : Byte) : Word :=
  hi ++ lo

/-- Decode the first instruction of a byte string and give back the rest. -/
def decodeBytes : List Byte → Except DecodeError (Instr × List Byte)
  | hi :: lo :: rest => .ok (decode (wordOfBytes hi lo), rest)
  | _ => .error .truncated

/-! ## Encoding -/

/-- The word of an instruction (30_encoding R81). -/
def encode : Instr → Word
  | .halt => 0x0000
  | .ret => 0x00EE
  | .call nnn => 0x2#4 ++ nnn
  | .add x y => 0x8#4 ++ x ++ y ++ 0x4#4
  | .unimplemented w => w

/-- A word's byte at the lower address (30_encoding R81, 20_memory R51). -/
def highByte (w : Word) : Byte :=
  w.extractLsb' 8 8

/-- A word's byte at the higher address (30_encoding R81, 20_memory R51). -/
def lowByte (w : Word) : Byte :=
  w.extractLsb' 0 8

/-- The two bytes of an instruction as they lie in memory (30_encoding R81). -/
def encodeBytes (i : Instr) : List Byte :=
  [highByte (encode i), lowByte (encode i)]

/-! ## Assembler spelling -/

/-- A hex digit, written as a capital (30_encoding R80). -/
def hexDigit (n : Nibble) : Char :=
  if n.toNat < 10 then Char.ofNat (48 + n.toNat) else Char.ofNat (55 + n.toNat)

/-- A word in four hex digits, most significant first (00_scope R8). -/
def hexWord (w : Word) : String :=
  String.ofList [hexDigit (fields w).c, hexDigit (fields w).x, hexDigit (fields w).y, hexDigit (fields w).d]

/-- An address in three hex digits. -/
def hexAddr (a : Addr) : String :=
  String.ofList [hexDigit (a.extractLsb' 8 4), hexDigit (a.extractLsb' 4 4), hexDigit (a.extractLsb' 0 4)]

/-- The spelling of 30_encoding R80: destination first, registers V0–VF, a raw word as a directive. -/
def Instr.asm : Instr → String
  | .halt => "HALT"
  | .ret => "RETURN"
  | .call nnn => "CALL 0x" ++ hexAddr nnn
  | .add x y => "ADD V" ++ String.ofList [hexDigit x] ++ ", V" ++ String.ofList [hexDigit y]
  | .unimplemented w => ".word 0x" ++ hexWord w

/-! ## The table's numbering -/

/-- The word that the low `nbits` bits of `w` spell, every other bit 0. -/
def tableWord (nbits w : Nat) : Word :=
  BitVec.ofNat 16 (w % 2 ^ nbits)

/-- What the decoder reads from the instruction whose bits, numbered as spec/opcode_table.json numbers them, are `w`.
One word is the longest instruction there is (30_encoding R70), so a longer bit string is no instruction. -/
def decodeTableWord (nbits w : Nat) : Option Instr :=
  if nbits ≤ 16 then
    match decodeBytes [highByte (tableWord nbits w), lowByte (tableWord nbits w)] with
    | .ok (i, []) => some i
    | .ok (_, _ :: _) => none
    | .error _ => none
  else none

end Sys2Proof
end

