-- ==== Sys2Proof/Config.lean ====
section
/-! DEFINITION. The implementation parameters of spec/00_scope.md R6. Every one is fixed by the spec, so this file holds
no free value: spec/93_implementation_defined.md names no result that the spec leaves undefined. -/

namespace Sys2Proof.Config

/-- MEMSIZE: bytes of memory (00_scope R6). -/
abbrev memSize : Nat := 4096

/-- The highest pc that can be fetched from (00_scope R6, 20_memory R54). -/
abbrev lastFetch : Word := 0x0FFE

/-- ILEN in bytes: how far every fetch advances the pc (00_scope R6, 40_cycle R104). -/
abbrev instrBytes : Word := 2

/-- FLAG: the index of the carry flag register (00_scope R6, 10_state R22). -/
abbrev flagReg : Nibble := 15

/-- STACKDEPTH: the value of sp when the call stack is full (00_scope R6, 42_stack R160). -/
abbrev stackDepth : BitVec 5 := 16

/-- The pc after reset (00_scope R6, 10_state R40). -/
abbrev resetPc : Word := 0x0000

/-- What a byte of memory that nothing has written reads as: its reset value (10_state R40, 70_reset_and_hazards R249). -/
abbrev unlistedByte : Byte := 0x00

end Sys2Proof.Config
end

