-- ==== Sys2Proof/Machine/State.lean ====
section
/-! DEFINITION. The machine's state as plain data: spec/10_state.md R40 element by element, and beside it the host's side
of the command port (spec/70_reset_and_hazards.md R242, R250). -/

namespace Sys2Proof.Machine

/-- Memory: the bytes that differ from `Config.unlistedByte`, as (address, byte) pairs by rising address. Its canonical
form is `Memory.wf` of Machine/Ops.lean. -/
abbrev Memory := List Host.Cell

/-- The four states of the control_fsm (40_cycle R100). -/
inductive FsmState where
  /-- Constructed and not yet run. -/
  | idle
  /-- A run is executing: the machine performs one instruction step after another. -/
  | running
  /-- The last run ended at HALT. -/
  | halted
  /-- The last run ended at a fatal condition. -/
  | faulted
  deriving DecidableEq, Repr

/-- The fault causes (60_exceptions R200). The codes 5–7 are never produced and have no constructor. -/
inductive Cause where
  /-- No fault. -/
  | none
  /-- CALL with a full call stack (60_exceptions R201). -/
  | stackOverflow
  /-- RETURN with an empty call stack (60_exceptions R202). -/
  | stackUnderflow
  /-- A word no handler matches (60_exceptions R203). -/
  | unimplementedOpcode
  /-- A fetch with pc > 0x0FFE (60_exceptions R204). -/
  | fetchOutOfRange
  deriving DecidableEq, Repr

/-- The fields of the read-only status register (10_state R35); `Status.word` of Machine/Ops.lean is its 24-bit view. -/
structure Status where
  state : FsmState
  cause : Cause
  info  : Word
  deriving DecidableEq, Repr

/-- The host's commands (70_reset_and_hazards R242). Index and address widths are those of R247 and D15; a load's offset
and length are unbounded, because R243 checks them. -/
inductive HostCommand where
  /-- reset, that is, construction (R240). -/
  | reset
  /-- load(a, b) (R243). -/
  | load (a : Nat) (b : List Byte)
  /-- write_reg(i, v) (R244). -/
  | writeReg (i : Nibble) (v : Byte)
  /-- write_pc(v) (R245). -/
  | writePc (v : Word)
  /-- run (R246). -/
  | run
  /-- read_reg(i) (R247). -/
  | readReg (i : Nibble)
  /-- read_mem(a) (R247). -/
  | readMem (a : Addr)
  /-- read_pc() (R247). -/
  | readPc
  /-- read_sp() (R247). -/
  | readSp
  /-- read_stack(j) (R247). -/
  | readStack (j : Nibble)
  /-- read_status() (R247). -/
  | readStatus
  deriving DecidableEq, Repr

/-- The responses to the host's commands (70_reset_and_hazards R242, R243, R246, R247). -/
inductive HostResponse where
  /-- The command took effect. -/
  | ok
  /-- A load past the end of memory, rejected whole (R243). -/
  | loadOutOfRange
  /-- A command that FAULTED refuses (R242). -/
  | refused
  /-- A run ended at HALT (R246). -/
  | halted
  /-- A run ended at a fault, with its cause and info (R246). -/
  | fault (cause : Cause) (info : Word)
  /-- The value of a register. -/
  | regValue (v : Byte)
  /-- The value of a byte of memory. -/
  | memValue (v : Byte)
  /-- The value of the pc. -/
  | pcValue (v : Word)
  /-- The value of sp. -/
  | spValue (v : BitVec 5)
  /-- The value of a call-stack entry. -/
  | stackValue (v : Word)
  /-- The 24-bit value of the status register (10_state R35). -/
  | statusValue (v : BitVec 24)
  deriving DecidableEq, Repr

/-- The host's side of the command port: no element of R40, but the order and the responses of its commands
(70_reset_and_hazards R242, R250). DESIGN CHOICE, log entry 1. -/
structure HostPort where
  /-- Commands issued that have not taken effect yet, oldest first. -/
  pending   : List HostCommand
  /-- Responses given so far, oldest first. -/
  responses : List HostResponse
  deriving DecidableEq, Repr

/-- The state of the machine (10_state R40), and the host's port. -/
structure State where
  /-- reg[0]–reg[15] (R20). -/
  regs   : Vector Byte 16
  /-- The program counter (R26). -/
  pc     : Word
  /-- stack[0]–stack[15] (R30). -/
  stack  : Vector Word 16
  /-- The count of live stack entries; 17–31 are unreachable (R31). -/
  sp     : BitVec 5
  /-- The 4096 bytes of memory (R33). -/
  mem    : Memory
  /-- The status register (R35). -/
  status : Status
  /-- The host's side of the command port. -/
  host   : HostPort
  deriving DecidableEq, Repr

/-- The status register after reset: IDLE, NONE, 0 (10_state R40, D18). -/
def Status.reset : Status where
  state := .idle
  cause := .none
  info  := 0x0000

/-- The machine right after construction: every element of 10_state R40 zero. The host has issued nothing and got no
response (DESIGN CHOICE, log entry 12). -/
def State.reset : State where
  regs   := Vector.replicate 16 0x00
  pc     := Config.resetPc
  stack  := Vector.replicate 16 0x0000
  sp     := 0
  mem    := []
  status := Status.reset
  host   := ⟨[], []⟩

/-- Reasons to stop with a fault: none. Every fault the spec names is TAKEN, as a next state that is FAULTED
(60_exceptions R205, R206), so nothing raises one of these: safe. -/
inductive Fault where
  deriving DecidableEq, Repr

/-- Reasons for which a step has no meaning. -/
inductive Refusal where
  /-- Raised by exec alone, for an instruction that has no meaning yet (none is left): safe, the model stops. -/
  | notModelled (mnemonic : String)
  /-- Raised by CALL and RETURN when sp is 17–31, values that 10_state R31 calls unreachable and
  93_implementation_defined section 2 says to refuse. Safe: the model stops, and no run from reset gets there. -/
  | stackPointerUnreachable
  deriving DecidableEq, Repr

end Sys2Proof.Machine
end

