-- ==== Sys2Proof/Machine/Ops.lean ====
section
/-! DEFINITION. The named operations over memory, registers, pc, call stack and status; the fetch; and taking a fault,
once (spec/10_state.md, spec/20_memory.md, spec/40_cycle.md R102–R104, spec/42_stack.md R160–R162,
spec/60_exceptions.md R205). -/

namespace Sys2Proof.Machine

/-! ## Memory -/

/-- The byte stored at key `a`: the listed one, else what an unlisted address reads as. -/
def Memory.readAt : Memory → Nat → Byte
  | [], _ => Config.unlistedByte
  | (k, v) :: rest, a => if k = a then v else Memory.readAt rest a

/-- Store `v` at key `a` and keep the canonical form: rising keys, no entry equal to `Config.unlistedByte`. -/
def Memory.writeAt : Memory → Nat → Byte → Memory
  | [], a, v => if v = Config.unlistedByte then [] else [(a, v)]
  | (k, b) :: rest, a, v =>
    if a < k then (if v = Config.unlistedByte then (k, b) :: rest else (a, v) :: (k, b) :: rest)
    else if a = k then (if v = Config.unlistedByte then rest else (a, v) :: rest)
    else (k, b) :: Memory.writeAt rest a v

/-- Keys from `lo` up, strictly rising, inside memory, and no entry equal to what an unlisted address reads as. -/
def Memory.wfFrom (lo : Nat) : Memory → Bool
  | [] => true
  | (k, v) :: rest =>
    decide (lo ≤ k) && decide (k < Config.memSize) && decide (v ≠ Config.unlistedByte) && Memory.wfFrom (k + 1) rest

/-- The canonical form of a memory. -/
def Memory.wf (m : Memory) : Bool :=
  Memory.wfFrom 0 m

/-- `mem[a]` (00_scope R9, 10_state R33). -/
def Memory.read (m : Memory) (a : Addr) : Byte :=
  Memory.readAt m a.toNat

/-- `MemWrite(a, 1, v)`, used by the host load only (00_scope R9, 10_state R34). -/
def Memory.write (m : Memory) (a : Addr) (v : Byte) : Memory :=
  Memory.writeAt m a.toNat v

/-- The bytes of `b` written from address `a` up, in order (70_reset_and_hazards R243). -/
def Memory.writeList (m : Memory) (a : Addr) : List Byte → Memory
  | [] => m
  | v :: rest => Memory.writeList (m.write a v) (a + 1) rest

/-! ## Registers and pc -/

/-- `reg[i]` (00_scope R9, 10_state R20): no register is hardwired. -/
def State.reg (s : State) (i : Nibble) : Byte :=
  s.regs[i.toNat]'i.isLt

/-- `reg[i] <- v` (00_scope R9). -/
def State.setReg (s : State) (i : Nibble) (v : Byte) : State :=
  { s with regs := s.regs.set i.toNat v i.isLt }

/-- `pc <- v` (00_scope R9). -/
def State.setPc (s : State) (v : Word) : State :=
  { s with pc := v }

/-! ## Call stack -/

/-- `stack[j]` (00_scope R9, 10_state R30). -/
def State.entry (s : State) (j : Nibble) : Word :=
  s.stack[j.toNat]'j.isLt

/-- `stack[j] <- v` (00_scope R9). -/
def State.setEntry (s : State) (j : Nibble) (v : Word) : State :=
  { s with stack := s.stack.set j.toNat v j.isLt }

/-- The stack_controller's `full` (42_stack R160). -/
def State.full (s : State) : Bool :=
  s.sp == Config.stackDepth

/-- The stack_controller's `empty` (42_stack R160). -/
def State.empty (s : State) : Bool :=
  s.sp == 0

/-- sp is one of the values 17–31 that 10_state R31 calls unreachable. -/
def State.spUnreachable (s : State) : Bool :=
  decide (Config.stackDepth < s.sp)

/-- The index of the entry the next push writes, `sp` (42_stack R161). -/
def State.pushIndex (s : State) : Nibble :=
  s.sp.extractLsb' 0 4

/-- The index of the top of the stack, `sp - 1` (10_state R31, 42_stack R162). -/
def State.topIndex (s : State) : Nibble :=
  (s.sp - 1).extractLsb' 0 4

/-- The writes of a push that is not refused (42_stack R161). -/
def State.push (s : State) (v : Word) : State :=
  { s.setEntry s.pushIndex v with sp := s.sp + 1 }

/-- What a pop that is not refused returns (42_stack R162): `stack[sp - 1]`. -/
def State.popData (s : State) : Word :=
  s.entry s.topIndex

/-- The write of a pop that is not refused (42_stack R162): the entry is read, not cleared. -/
def State.pop (s : State) : State :=
  { s with sp := s.sp - 1 }

/-! ## Status, taking a fault, and stopping -/

/-- The code of a control_fsm state in `status` bits [1:0] (40_cycle R100). -/
def FsmState.code : FsmState → BitVec 2
  | .idle => 0
  | .running => 1
  | .halted => 2
  | .faulted => 3

/-- The code of a fault cause in `status` bits [4:2] (60_exceptions R200). -/
def Cause.code : Cause → BitVec 3
  | .none => 0
  | .stackOverflow => 1
  | .stackUnderflow => 2
  | .unimplementedOpcode => 3
  | .fetchOutOfRange => 4

/-- The 24-bit `status` value: info [23:8], reserved [7:5] zero, cause [4:2], state [1:0] (10_state R35). -/
def Status.word (st : Status) : BitVec 24 :=
  st.info ++ 0#3 ++ st.cause.code ++ st.state.code

/-- The control FSM enters a state, and nothing else changes (40_cycle R101). -/
def State.enter (s : State) (f : FsmState) : State :=
  { s with status := { s.status with state := f } }

/-- TAKING A FAULT: `raise F(info)` (60_exceptions R205). The status register records it and nothing is saved anywhere
else; the rest of the instruction does not happen. There is no return from it (R207). -/
def State.raise (s : State) (c : Cause) (info : Word) : State :=
  { s with status := { state := .faulted, cause := c, info := info } }

/-! ## Fetch and advance -/

/-- The fetch_unit's `fetch_fault` (40_cycle R103): pc > 0x0FFE. -/
def fetchFault (pc : Word) : Bool :=
  decide (Config.lastFetch < pc)

/-- The address of the high byte of the word at `pc`: `pc[11:0]` (40_cycle R103). -/
def fetchAddrHi (pc : Word) : Addr :=
  pc.extractLsb' 0 12

/-- The address of the low byte of the word at `pc`: `pc[11:0] + 1` (40_cycle R103). -/
def fetchAddrLo (pc : Word) : Addr :=
  fetchAddrHi pc + 1

/-- `MemRead(pc, 2)`, big-endian (20_memory R51). -/
def State.wordAt (s : State) (pc : Word) : Word :=
  wordOfBytes (s.mem.read (fetchAddrHi pc)) (s.mem.read (fetchAddrLo pc))

/-- The fetch of a step (40_cycle R102, R103): no word, and no byte read, when pc is out of range. -/
def State.fetch (s : State) : Option Word :=
  if fetchFault s.pc then none else some (s.wordAt s.pc)

/-- The advance that comes after the fetch and before dispatch (40_cycle R104). -/
def State.advance (s : State) : State :=
  s.setPc (s.pc + Config.instrBytes)

end Sys2Proof.Machine
end

