-- ==== Sys2Proof/Machine/Operands.lean ====
section
/-! DEFINITION. How operands are assembled (spec/30_encoding.md R73, R74) and how a result is written with its flag
(spec/10_state.md R24, spec/41_alu.md R143). -/

namespace Sys2Proof.Machine

/-- A CALL target: nnn zero-extended to 16 bits, not scaled and not pc-relative (30_encoding R73). -/
def jumpTarget (nnn : Addr) : Word :=
  nnn.setWidth 16

/-- The result written first, the flag second, so the flag wins when `x` is register 15 (41_alu R143). -/
def State.writeResultAndFlag (s : State) (x : Nibble) (result flag : Byte) : State :=
  (s.setReg x result).setReg Config.flagReg flag

end Sys2Proof.Machine
end

