-- ==== Sys2Proof/Machine/Arith.lean ====
section
/-! DEFINITION. The meaning of ADD (spec/41_alu.md R141). -/

namespace Sys2Proof.Machine

/-- ADD Vx, Vy: both operands are read before any write; reg[x] takes the sum modulo 256, then reg[15] the carry
(41_alu R141, R143). -/
def execAdd (x y : Nibble) (s : State) : Host.Outcome State Fault Refusal :=
  let a := s.reg x
  let b := s.reg y
  .next (s.writeResultAndFlag x (aluSum a b) (flagByte (aluCarry a b)))

end Sys2Proof.Machine
end

