-- ==== Sys2Proof/Machine/Call.lean ====
section
/-! DEFINITION. The meanings of CALL (spec/42_stack.md R163) and RETURN (R164). The word a fault records is the
instruction's own, which `encode` gives (DEDUCED, log entry 9). -/

namespace Sys2Proof.Machine

/-- CALL nnn: StackOverflow when the stack is full; else push the advanced pc and jump to nnn (42_stack R163). -/
def execCall (nnn : Addr) (s : State) : Host.Outcome State Fault Refusal :=
  if s.full then .next (s.raise .stackOverflow (encode (.call nnn)))
  else if s.spUnreachable then .refused .stackPointerUnreachable
  else .next ((s.push s.pc).setPc (jumpTarget nnn))

/-- RETURN: StackUnderflow when the stack is empty; else pop the return address into pc (42_stack R164). -/
def execRet (s : State) : Host.Outcome State Fault Refusal :=
  if s.empty then .next (s.raise .stackUnderflow (encode .ret))
  else if s.spUnreachable then .refused .stackPointerUnreachable
  else .next (s.pop.setPc s.popData)

end Sys2Proof.Machine
end

