-- ==== Sys2Proof/Machine/Control.lean ====
section
/-! DEFINITION. The meaning of HALT (spec/40_cycle.md R108). The pc is already advanced when a meaning runs. -/

namespace Sys2Proof.Machine

/-- HALT: the control FSM enters HALTED and nothing else changes (40_cycle R108). -/
def execHalt (s : State) : Host.Outcome State Fault Refusal :=
  .next (s.enter .halted)

end Sys2Proof.Machine
end

