-- ==== Sys2Proof/Machine/Illegal.lean ====
section
/-! DEFINITION. The meaning of a word no handler matches (spec/40_cycle.md R109). -/

namespace Sys2Proof.Machine

/-- UNIMPL: take the fault UnimplementedOpcode with the raw word as info (40_cycle R109, 60_exceptions R203). -/
def execUnimplemented (w : Word) (s : State) : Host.Outcome State Fault Refusal :=
  .next (s.raise .unimplementedOpcode w)

end Sys2Proof.Machine
end

