-- ==== Sys2Proof/Machine/Dispatch.lean ====
section
/-! DEFINITION. Dispatch: one arm per instruction, one handler each (spec/40_cycle.md R102, R112). -/

namespace Sys2Proof.Machine

/-- The effect of one instruction on a state whose pc is already advanced past it (40_cycle R102, R104). -/
def exec (i : Instr) (s : State) : Host.Outcome State Fault Refusal :=
  match i with
  | .halt => Sys2Proof.Machine.execHalt s
  | .ret => Sys2Proof.Machine.execRet s
  | .call nnn => Sys2Proof.Machine.execCall nnn s
  | .add x y => Sys2Proof.Machine.execAdd x y s
  | .unimplemented w => Sys2Proof.Machine.execUnimplemented w s

end Sys2Proof.Machine
end

