-- ==== Sys2Proof/Machine/HostPort.lean ====
section
/-! DEFINITION. The host interface (spec/70_reset_and_hazards.md R240–R250): what each command does to a machine that is
not RUNNING, and what it answers. -/

namespace Sys2Proof.Machine

/-- Give the host a response. -/
def State.respond (s : State) (r : HostResponse) : State :=
  { s with host := { s.host with responses := s.host.responses ++ [r] } }

/-- Every element of 10_state R40 takes its reset value (R240); the host on the other side of the port keeps its list of
commands and responses (DESIGN CHOICE, log entry 12). -/
def State.construct (s : State) : State :=
  { State.reset with host := s.host }

/-- load(a, b) (R243): rejected whole when it would pass the end of memory, else written byte by byte. -/
def State.load (s : State) (a : Nat) (b : List Byte) : State :=
  if a + b.length > Config.memSize then s.respond .loadOutOfRange
  else ({ s with mem := s.mem.writeList (BitVec.ofNat 12 a) b }).respond .ok

/-- FAULTED refuses the commands that would change the machine (R242, D6). -/
def State.unlessFaulted (s t : State) : State :=
  if s.status.state = .faulted then s.respond .refused else t

/-- One command's effect and response, in IDLE, HALTED or FAULTED (R242–R247). A run gets its response when it ends
(R246), unless FAULTED refuses it. -/
def hostCommand (c : HostCommand) (s : State) : State :=
  match c with
  | .reset => s.construct.respond .ok
  | .load a b => s.unlessFaulted (s.load a b)
  | .writeReg i v => s.unlessFaulted ((s.setReg i v).respond .ok)
  | .writePc v => s.unlessFaulted ((s.setPc v).respond .ok)
  | .run => s.unlessFaulted (s.enter .running)
  | .readReg i => s.respond (.regValue (s.reg i))
  | .readMem a => s.respond (.memValue (s.mem.read a))
  | .readPc => s.respond (.pcValue s.pc)
  | .readSp => s.respond (.spValue s.sp)
  | .readStack j => s.respond (.stackValue (s.entry j))
  | .readStatus => s.respond (.statusValue s.status.word)

/-- A machine that is not RUNNING performs the oldest command the host has issued (R250). With none issued it holds
everything (40_cycle R105, HOLD; log entry 2). -/
def hostStep (s : State) : State :=
  match s.host.pending with
  | [] => s
  | c :: rest => hostCommand c { s with host := { s.host with pending := rest } }

/-- The response to run, given when the FSM leaves RUNNING (R246): none while it is still RUNNING. -/
def endRun (s : State) : State :=
  match s.status.state with
  | .running => s
  | .idle => s
  | .halted => s.respond .halted
  | .faulted => s.respond (.fault s.status.cause s.status.info)

end Sys2Proof.Machine
end

