-- ==== Sys2Proof/Machine/Step.lean ====
section
/-! DEFINITION. The step of the machine (spec/40_cycle.md R101, R102), and how the pipeline places an instruction. -/

namespace Sys2Proof.Machine

/-- The instruction step of a RUNNING machine (40_cycle R102): range check, fetch, advance, decode, dispatch. -/
def instructionStep (s : State) : Host.Outcome State Fault Refusal :=
  match s.fetch with
  | none => .next (s.raise .fetchOutOfRange s.pc)
  | some w => exec (decode w) s.advance

/-- One step. RUNNING: one instruction, and the response to run if it ended the run (70_reset_and_hazards R246). Not
RUNNING: the host's oldest command (R248, R250). -/
def step (s : State) : Host.Outcome State Fault Refusal :=
  match s.status.state with
  | .running =>
    match instructionStep s with
    | .next t => .next (endRun t)
    | .fault r => .fault r
    | .refused r => .refused r
  | .idle => .next (hostStep s)
  | .halted => .next (hostStep s)
  | .faulted => .next (hostStep s)

/-- `s` with an instruction stored where the next step fetches, and RUNNING, as after a host's load and run: the two bytes
go to pc (to address 0, with pc there, if pc is not fetchable). Log entry 5. -/
def State.withFetchWord (s : State) (nbits w : Nat) : State :=
  let pc := if fetchFault s.pc then Config.resetPc else s.pc
  let word := tableWord nbits w
  { s with
    pc := pc
    mem := (s.mem.write (fetchAddrHi pc) (highByte word)).write (fetchAddrLo pc) (lowByte word)
    status := { state := .running, cause := .none, info := 0x0000 } }

end Sys2Proof.Machine
end

