-- ==== Sys2Proof/Machine/Units.lean ====
section
/-! DEFINITION. The seven units of spec/00_scope.md R3 with their ports, and the step they make together, RUNNING or not:
in every FSM state the program_counter_mux chooses the next pc by the select that the control FSM drives. This is a second
description of the step (spec/40_cycle.md R101, R105, R106), to be compared with `instructionStep` and `hostCommand`.
Where the spec gives a port no value ("undefined and not used", "not used"), the port takes the value of a field of
`OpenPorts`, which may be any (spec/93_implementation_defined.md section 2; log entry 14). -/

namespace Sys2Proof.Machine

/-- The values of the ports that the spec leaves open while they are not used (log entry 14). -/
structure OpenPorts where
  /-- `instr` while `fetch_fault` is 1 (40_cycle R103). -/
  instr    : Word
  /-- `pop_data` while there is no top entry (42_stack R160). -/
  popData  : Word
  /-- The host's 16-bit value while there is no host pc write (40_cycle R105). -/
  hostPc   : Word
  /-- The register_file's `host_idx` while the host neither reads nor writes a register (10_state R24). -/
  hostIdx  : Nibble
  /-- The register_file's `host_wdata` while there is no host register write (10_state R24). -/
  hostData : Byte
  /-- The stack_controller's `host_idx` while the host reads no stack entry (42_stack R160). -/
  stackIdx : Nibble
  deriving DecidableEq, Repr

/-! ## fetch_unit -/

/-- The fetch_unit's outputs to the decoder and the control FSM (40_cycle R103). -/
structure FetchOut where
  instr      : Word
  fetchFault : Bool
  deriving DecidableEq, Repr

/-- The fetch_unit (40_cycle R103): `instr` is any value while `fetch_fault` is 1. -/
def fetchUnit (anyInstr pcIn : Word) (memDataHi memDataLo : Byte) : FetchOut where
  instr      := if fetchFault pcIn then anyInstr else memDataHi ++ memDataLo
  fetchFault := fetchFault pcIn

/-! ## register_file -/

/-- The write ports of the register_file (10_state R24). -/
structure RegPorts where
  wrEn      : Bool
  wrIdx     : Nibble
  wrData    : Byte
  flEn      : Bool
  flData    : BitVec 1
  hostWen   : Bool
  hostIdx   : Nibble
  hostWdata : Byte
  deriving DecidableEq, Repr

/-- The value register `i` takes: the flag has priority over the result on index 15 (10_state R24). The host's write is
made in another step than an instruction's (70_reset_and_hazards R248), so its place in this order never matters. -/
def RegPorts.next (p : RegPorts) (i : Nibble) (old : Byte) : Byte :=
  if p.flEn && i == Config.flagReg then flagByte p.flData
  else if p.wrEn && i == p.wrIdx then p.wrData
  else if p.hostWen && i == p.hostIdx then p.hostWdata
  else old

/-- The register_file after a step (10_state R24). -/
def registerFile (p : RegPorts) (s : State) : Vector Byte 16 :=
  Vector.ofFn fun i : Fin 16 => p.next (BitVec.ofFin i) s.regs[i]

/-- The read ports of the register_file (10_state R24). -/
structure RegOut where
  raData    : Byte
  rbData    : Byte
  hostRdata : Byte
  deriving DecidableEq, Repr

/-- The register_file's read ports: the values held at the start of the step (10_state R24). -/
def registerReads (raIdx rbIdx hostIdx : Nibble) (s : State) : RegOut where
  raData    := s.reg raIdx
  rbData    := s.reg rbIdx
  hostRdata := s.reg hostIdx

/-- The register_file's `host_idx`: the index of a write_reg or a read_reg (10_state R24, 70_reset_and_hazards R244 and
R247). -/
def hostIdxPort (anyIdx : Nibble) : Option HostCommand → Nibble
  | some (.writeReg i _) => i
  | some (.readReg i) => i
  | _ => anyIdx

/-- The register_file's `host_wdata`: the value of a write_reg (10_state R24, 70_reset_and_hazards R244). -/
def hostDataPort (anyData : Byte) : Option HostCommand → Byte
  | some (.writeReg _ v) => v
  | _ => anyData

/-! ## stack_controller -/

/-- The stack_controller's `pop_data` (42_stack R160): any value when there is no top entry. -/
def popDataPort (anyPop : Word) (s : State) : Word :=
  if s.empty || s.spUnreachable then anyPop else s.popData

/-- The stack_controller's outputs (42_stack R160). -/
structure StackOut where
  popData   : Word
  full      : Bool
  empty     : Bool
  spOut     : BitVec 5
  hostRdata : Word
  deriving DecidableEq, Repr

/-- The stack_controller's outputs, the host observation port among them, which sees entries that are not live too
(42_stack R160, 10_state R32). -/
def stackOutputs (anyPop : Word) (hostIdx : Nibble) (s : State) : StackOut where
  popData   := popDataPort anyPop s
  full      := s.full
  empty     := s.empty
  spOut     := s.sp
  hostRdata := s.entry hostIdx

/-- The stack_controller's `host_idx`: the index of a read_stack (42_stack R160, 70_reset_and_hazards R247). -/
def stackIdxPort (anyIdx : Nibble) : Option HostCommand → Nibble
  | some (.readStack j) => j
  | _ => anyIdx

/-- The stack_controller's storage after a step (42_stack R160–R162). -/
def stackStorage (push : Bool) (pushData : Word) (s : State) : Vector Word 16 :=
  if push then (s.setEntry s.pushIndex pushData).stack else s.stack

/-- The stack pointer after a step (42_stack R160–R162). -/
def stackPointer (push pop : Bool) (s : State) : BitVec 5 :=
  if push then s.sp + 1 else if pop then s.sp - 1 else s.sp

/-! ## program_counter_mux -/

/-- The select of the program_counter_mux (40_cycle R105); 5–7 are never driven. -/
inductive PcSel where
  | hold
  | seq
  | call
  | ret
  | host
  deriving DecidableEq, Repr

/-- The select as driven on `pc_sel` (40_cycle R105). -/
def PcSel.code : PcSel → BitVec 3
  | .hold => 0
  | .seq => 1
  | .call => 2
  | .ret => 3
  | .host => 4

/-- The program_counter_mux (40_cycle R105). -/
def pcMux (sel : PcSel) (pc : Word) (nnn : Addr) (popData hostValue : Word) : Word :=
  match sel with
  | .hold => pc
  | .seq => pc + 2
  | .call => nnn.setWidth 16
  | .ret => popData
  | .host => hostValue

/-- The host's 16-bit value at the mux: that of a write_pc (40_cycle R105, 70_reset_and_hazards R245). -/
def hostPcPort (anyPc : Word) : Option HostCommand → Word
  | some (.writePc v) => v
  | _ => anyPc

/-! ## control_fsm -/

/-- What the control FSM drives in one step: a row of 40_cycle R106, or of R101 and R105 for a machine that is not
RUNNING. What a row does not name is not enabled. -/
structure ControlOut where
  wr        : Bool := false
  fl        : Bool := false
  push      : Bool := false
  pop       : Bool := false
  /-- `host_wen` of the register_file (10_state R24). -/
  hostWen   : Bool := false
  /-- The host's load may write memory (10_state R34). -/
  hostLoad  : Bool := false
  /-- Host reset: every state element takes its reset value (40_cycle R101). -/
  construct : Bool := false
  pcSel     : PcSel
  next      : FsmState
  raised    : Cause := .none
  deriving DecidableEq, Repr

/-- The rows of 40_cycle R106 for a word that was fetched. -/
def controlOfOp (op : OpTag) (full empty : Bool) : ControlOut :=
  match op, full, empty with
  | .halt, _, _ => { pcSel := .seq, next := .halted }
  | .add, _, _ => { wr := true, fl := true, pcSel := .seq, next := .running }
  | .call, false, _ => { push := true, pcSel := .call, next := .running }
  | .call, true, _ => { pcSel := .seq, next := .faulted, raised := .stackOverflow }
  | .ret, _, false => { pop := true, pcSel := .ret, next := .running }
  | .ret, _, true => { pcSel := .seq, next := .faulted, raised := .stackUnderflow }
  | .unimpl, _, _ => { pcSel := .seq, next := .faulted, raised := .unimplementedOpcode }

/-- The rows of a RUNNING machine (40_cycle R106): "fetch fault" comes before the op tag (60_exceptions R209). -/
def controlRunning (fetchFault : Bool) (op : OpTag) (full empty : Bool) : ControlOut :=
  if fetchFault then { pcSel := .hold, next := .faulted, raised := .fetchOutOfRange }
  else controlOfOp op full empty

/-- The rows of a machine that is not RUNNING, state `f`: HOST on a host pc write, else HOLD (40_cycle R105); the
transitions by run and reset (R101); a command that only reads, or that FAULTED refuses, enables nothing
(70_reset_and_hazards R242). -/
def controlStopped (f : FsmState) (cmd : Option HostCommand) : ControlOut :=
  match cmd with
  | some .reset => { construct := true, pcSel := .hold, next := .idle }
  | some (.load _ _) => { hostLoad := f != .faulted, pcSel := .hold, next := f }
  | some (.writeReg _ _) => { hostWen := f != .faulted, pcSel := .hold, next := f }
  | some (.writePc _) => { pcSel := if f = .faulted then .hold else .host, next := f }
  | some .run => { pcSel := .hold, next := if f = .faulted then .faulted else .running }
  | some (.readReg _) => { pcSel := .hold, next := f }
  | some (.readMem _) => { pcSel := .hold, next := f }
  | some .readPc => { pcSel := .hold, next := f }
  | some .readSp => { pcSel := .hold, next := f }
  | some (.readStack _) => { pcSel := .hold, next := f }
  | some .readStatus => { pcSel := .hold, next := f }
  | none => { pcSel := .hold, next := f }

/-- The control FSM in state `f` (40_cycle R101, R105, R106). While it is RUNNING no host command has a move
(70_reset_and_hazards R248); while it is not, no instruction has. -/
def controlFsm (f : FsmState) (cmd : Option HostCommand) (fetchFault : Bool) (op : OpTag) (full empty : Bool) :
    ControlOut :=
  match f with
  | .running => controlRunning fetchFault op full empty
  | .idle => controlStopped .idle cmd
  | .halted => controlStopped .halted cmd
  | .faulted => controlStopped .faulted cmd

/-- The status register after a step (10_state R35, 60_exceptions R200): a fault records the word, a fetch fault the pc. -/
def statusNext (k : ControlOut) (pc w : Word) (old : Status) : Status :=
  match k.raised with
  | .none => { old with state := k.next }
  | .fetchOutOfRange => { state := k.next, cause := .fetchOutOfRange, info := pc }
  | c => { state := k.next, cause := c, info := w }

/-! ## Memory -/

/-- Memory, which is none of the seven units, after a step: only a load that is enabled writes it (10_state R34). -/
def memoryNext (hostLoad : Bool) (cmd : Option HostCommand) (s : State) : Memory :=
  match hostLoad, cmd with
  | true, some (.load a b) => (s.load a b).mem
  | _, _ => s.mem

/-! ## The units together -/

/-- The fetch_unit of the machine in state `s`, its data ports fed by memory (40_cycle R103). -/
def unitFetch (p : OpenPorts) (s : State) : FetchOut :=
  fetchUnit p.instr s.pc (s.mem.read (fetchAddrHi s.pc)) (s.mem.read (fetchAddrLo s.pc))

/-- The stack_controller of the machine in state `s` while the host issues `cmd`. -/
def unitStack (p : OpenPorts) (cmd : Option HostCommand) (s : State) : StackOut :=
  stackOutputs p.popData (stackIdxPort p.stackIdx cmd) s

/-- The register_file's read ports in state `s` while the host issues `cmd`; the decoder drives the other two indices. -/
def unitReads (p : OpenPorts) (cmd : Option HostCommand) (s : State) : RegOut :=
  registerReads (fields (unitFetch p s).instr).x (fields (unitFetch p s).instr).y (hostIdxPort p.hostIdx cmd) s

/-- What the control FSM drives in state `s` while the host issues `cmd`. -/
def unitControl (p : OpenPorts) (cmd : Option HostCommand) (s : State) : ControlOut :=
  controlFsm s.status.state cmd (unitFetch p s).fetchFault (opTag (unitFetch p s).instr) (unitStack p cmd s).full
    (unitStack p cmd s).empty

/-- The step as the seven units make it, while the host issues `cmd` or nothing, for any values of the ports the spec
leaves open. The alu and the decoder are `aluSum`, `aluCarry`, `fields` and `opTag`. The load into memory and the
construction are made by no unit and stand beside them, enabled by the control FSM (log entry 14). The host's side of the
command port is no unit's either. -/
def unitStep (p : OpenPorts) (cmd : Option HostCommand) (s : State) : State :=
  let f := unitFetch p s
  let dec := fields f.instr
  let k := unitControl p cmd s
  let r := unitReads p cmd s
  if k.construct then { State.reset with host := s.host }
  else
    { s with
      regs := registerFile ⟨k.wr, dec.x, aluSum r.raData r.rbData, k.fl, aluCarry r.raData r.rbData,
        k.hostWen, hostIdxPort p.hostIdx cmd, hostDataPort p.hostData cmd⟩ s
      pc := pcMux k.pcSel s.pc dec.nnn (unitStack p cmd s).popData (hostPcPort p.hostPc cmd)
      stack := stackStorage k.push (s.pc + 2) s
      sp := stackPointer k.push k.pop s
      mem := memoryNext k.hostLoad cmd s
      status := statusNext k s.pc f.instr s.status }

/-- What a host read answers, read off the ports it is made through (70_reset_and_hazards R247): `host_rdata` of the
register_file (10_state R24), `host_rdata` and `sp_out` of the stack_controller (42_stack R160); and memory, pc and status,
which the spec gives no read port of their own. Nothing for a command that is no read. -/
def unitRead (p : OpenPorts) (cmd : Option HostCommand) (s : State) : Option HostResponse :=
  match cmd with
  | some (.readReg _) => some (.regValue (unitReads p cmd s).hostRdata)
  | some (.readMem a) => some (.memValue (s.mem.read a))
  | some .readPc => some (.pcValue s.pc)
  | some .readSp => some (.spValue (unitStack p cmd s).spOut)
  | some (.readStack _) => some (.stackValue (unitStack p cmd s).hostRdata)
  | some .readStatus => some (.statusValue s.status.word)
  | some .reset => none
  | some (.load _ _) => none
  | some (.writeReg _ _) => none
  | some (.writePc _) => none
  | some .run => none
  | none => none

end Sys2Proof.Machine
end

