-- ==== Sys2Proof/Safety.lean ====
section
/-! DEFINITION. What claims are stated in terms of: the invariant of every run, how a run ends, and sequences of
instructions (spec/10_state.md R31, R35; spec/40_cycle.md R111; spec/42_stack.md R164, R166; spec/60_exceptions.md R200,
R206). -/

namespace Sys2Proof.Machine

/-- A pc just after an advance: 0x0002 to 0x1000 (10_state R29, 42_stack R164). -/
abbrev advancedPc (p : Word) : Prop :=
  2 ≤ p.toNat ∧ p.toNat ≤ 0x1000

/-- The status register of a FAULTED machine records a fault that could have happened, and the state it leaves
(60_exceptions R200, R206). -/
def State.recordsFault (s : State) : Prop :=
  match s.status.cause with
  | .none => False
  | .stackOverflow => opTag s.status.info = .call ∧ s.sp = 16 ∧ advancedPc s.pc
  | .stackUnderflow => s.status.info = 0x00EE ∧ s.sp = 0 ∧ advancedPc s.pc
  | .unimplementedOpcode => opTag s.status.info = .unimpl ∧ advancedPc s.pc
  | .fetchOutOfRange => s.status.info = s.pc ∧ 0x0FFE < s.pc.toNat

/-- The invariant of every run. -/
structure State.Inv (s : State) : Prop where
  /-- Memory keeps its canonical form inside 4096 bytes (10_state R33). -/
  mem_wf : s.mem.wf = true
  /-- `0 ≤ sp ≤ 16` (10_state R31). -/
  sp_le : s.sp.toNat ≤ 16
  /-- Cause and info are 0 unless the state is FAULTED (10_state R35). -/
  clean : s.status.state ≠ .faulted → s.status.cause = .none ∧ s.status.info = 0
  /-- A FAULTED machine records its fault (60_exceptions R200, R206). -/
  recorded : s.status.state = .faulted → s.recordsFault
  /-- A live entry is some CALL's advanced pc (42_stack R164). -/
  live : ∀ j : Nibble, j.toNat < s.sp.toNat → advancedPc (s.entry j)

/-- A run that ended normally: HALTED, never FAULTED (40_cycle R111). -/
def State.completedNormally (s : State) : Prop :=
  s.status.state = .halted

/-- The parts of R40 that instructions act on are equal: everything but the host's port. -/
structure State.SameCore (s t : State) : Prop where
  regs : t.regs = s.regs
  pc : t.pc = s.pc
  stack : t.stack = s.stack
  sp : t.sp = s.sp
  mem : t.mem = s.mem
  status : t.status = s.status

/-- Two states that differ at most in the stack entries that are not live (10_state R32). -/
structure State.AgreeLive (s t : State) : Prop where
  regs : t.regs = s.regs
  pc : t.pc = s.pc
  sp : t.sp = s.sp
  mem : t.mem = s.mem
  status : t.status = s.status
  host : t.host = s.host
  live : ∀ j : Nibble, j.toNat < s.sp.toNat → t.entry j = s.entry j

/-- Instructions executed one after another, each after the advance past it, as long as the machine is RUNNING: none when
one of them stops the run. The words' places in memory play no part. -/
def runInstrs : List Instr → State → Option State
  | [], s => some s
  | i :: is, s =>
    match exec i s.advance with
    | .next t => if t.status.state = .running then runInstrs is t else none
    | .fault _ => none
    | .refused _ => none

/-- A sequence in which every CALL is matched by a later RETURN and every RETURN by an earlier CALL (42_stack R166). -/
inductive Balanced : List Instr → Prop where
  | nil : Balanced []
  | add (x y : Nibble) (b : List Instr) : Balanced b → Balanced (.add x y :: b)
  | nest (nnn : Addr) (a b : List Instr) : Balanced a → Balanced b → Balanced (.call nnn :: (a ++ .ret :: b))

/-- `n` steps of `step`, for host commands and runs followed over several steps. -/
def steps : Nat → State → Option State
  | 0, s => some s
  | n + 1, s =>
    match step s with
    | .next t => steps n t
    | .fault _ => none
    | .refused _ => none

end Sys2Proof.Machine
end

