-- ==== Sys2Proof/Certificates/Slice0/Obligations.lean ====
section
/-! DEFINITION. The statements for the provers. Each docstring names the rules of spec/ it formalises. -/

open Sys2Proof Sys2Proof.Machine

/-! ## Reset and the invariant -/

/-- 10_state R40: every element of the architectural state at reset. -/
def Obligations.ResetZeroesEveryElement : Prop :=
  (∀ i : Nibble, State.reset.reg i = 0) ∧ State.reset.pc = 0x0000 ∧ (∀ j : Nibble, State.reset.entry j = 0) ∧
  State.reset.sp = 0 ∧ (∀ a : Addr, State.reset.mem.read a = 0x00) ∧
  State.reset.status.state = .idle ∧ State.reset.status.cause = .none ∧ State.reset.status.info = 0 ∧
  State.reset.status.word = 0

/-- The invariant holds at reset. -/
def Obligations.ResetMeetsInvariant : Prop :=
  State.reset.Inv

/-- Every step keeps the invariant: canonical memory, 0 ≤ sp ≤ 16 (10_state R31), cause and info 0 unless FAULTED
(10_state R35), a FAULTED machine records a fault that could have happened (60_exceptions R200, R206), and every live
stack entry is some CALL's advanced pc, 0x0002–0x1000 (42_stack R164). Instructions and host commands alike. -/
def Obligations.StepKeepsInvariant : Prop :=
  ∀ s t : State, s.Inv → step s = .next t → t.Inv

/-- From a state that meets the invariant the machine never stops by a fault or a refusal of the model. -/
def Obligations.InvariantStateAlwaysSteps : Prop :=
  ∀ s : State, s.Inv → ∃ t, step s = .next t

/-! ## Encoding -/

/-- The decoder vectors of 95_test_vectors.md section 2.1, written out word by word. -/
def Obligations.SpecWordsDecode : Prop :=
  decode 0x0000 = .halt ∧ decode 0x00EE = .ret ∧ decode 0x2ABC = .call 0xABC ∧ decode 0x2000 = .call 0x000 ∧
  decode 0x8014 = .add 0 1 ∧ decode 0x8FE4 = .add 15 14 ∧ decode 0x8004 = .add 0 0 ∧
  decode 0x8015 = .unimplemented 0x8015 ∧ decode 0x80EE = .unimplemented 0x80EE ∧
  decode 0x00E0 = .unimplemented 0x00E0 ∧ decode 0x00EF = .unimplemented 0x00EF ∧
  decode 0x0001 = .unimplemented 0x0001 ∧ decode 0x10EE = .unimplemented 0x10EE ∧
  decode 0x1234 = .unimplemented 0x1234 ∧ decode 0xFFFF = .unimplemented 0xFFFF

/-- 30_encoding R71 and R72: the fields of the single format, how they overlap, and the codes of the op port, of which 5–7
are never produced. -/
def Obligations.FieldsSplitTheWord : Prop :=
  (OpTag.unimpl.code = 0 ∧ OpTag.halt.code = 1 ∧ OpTag.ret.code = 2 ∧ OpTag.call.code = 3 ∧ OpTag.add.code = 4 ∧
    ∀ w : Word, (opTag w).code.toNat ≤ 4) ∧
  ∀ w : Word,
    (fields w).c.toNat = w.toNat / 4096 ∧ (fields w).x.toNat = w.toNat / 256 % 16 ∧
    (fields w).y.toNat = w.toNat / 16 % 16 ∧ (fields w).d.toNat = w.toNat % 16 ∧
    (fields w).nnn.toNat = w.toNat % 4096 ∧ (fields w).kk.toNat = w.toNat % 256 ∧
    (fields w).nnn = (fields w).x ++ (fields w).y ++ (fields w).d ∧ (fields w).kk = (fields w).y ++ (fields w).d

/-- 30_encoding R75: which words have which op tag, each tag by its own pattern; every other word is UNIMPL. -/
def Obligations.OpTagFollowsThePatterns : Prop :=
  ∀ w : Word,
    (opTag w = .halt ↔ w.toNat = 0x0000) ∧ (opTag w = .ret ↔ w.toNat = 0x00EE) ∧
    (opTag w = .call ↔ w.toNat / 4096 = 0x2) ∧ (opTag w = .add ↔ w.toNat / 4096 = 0x8 ∧ w.toNat % 16 = 0x4) ∧
    (opTag w = .unimpl ↔ w.toNat ≠ 0x0000 ∧ w.toNat ≠ 0x00EE ∧ w.toNat / 4096 ≠ 0x2 ∧
      ¬ (w.toNat / 4096 = 0x8 ∧ w.toNat % 16 = 0x4))

/-- opcode_table.json against the decoder, row by row: a word matches a row's mask and pattern exactly when it has the
row's op tag, which is exactly when it decodes to the row's instruction; it takes the default row exactly when no other row
matches it; and no word matches two rows. -/
def Obligations.OpcodeTableAgreesWithDecoder : Prop :=
  opcodeRows =
    [⟨"HALT", 0xFFFF, 0x0000⟩, ⟨"RETURN", 0xFFFF, 0x00EE⟩, ⟨"CALL", 0xF000, 0x2000⟩, ⟨"ADD", 0xF00F, 0x8004⟩] ∧
  ∀ w : Word,
    ((OpcodeRow.covers ⟨"HALT", 0xFFFF, 0x0000⟩ w = true ↔ opTag w = .halt) ∧ (opTag w = .halt ↔ decode w = .halt)) ∧
    ((OpcodeRow.covers ⟨"RETURN", 0xFFFF, 0x00EE⟩ w = true ↔ opTag w = .ret) ∧ (opTag w = .ret ↔ decode w = .ret)) ∧
    ((OpcodeRow.covers ⟨"CALL", 0xF000, 0x2000⟩ w = true ↔ opTag w = .call) ∧
      (opTag w = .call ↔ ∃ nnn, decode w = .call nnn)) ∧
    ((OpcodeRow.covers ⟨"ADD", 0xF00F, 0x8004⟩ w = true ↔ opTag w = .add) ∧
      (opTag w = .add ↔ ∃ x y, decode w = .add x y)) ∧
    ((definedWord w = false ↔ opTag w = .unimpl) ∧ (opTag w = .unimpl ↔ decode w = .unimplemented w)) ∧
    ∀ r₁ ∈ opcodeRows, ∀ r₂ ∈ opcodeRows, r₁.covers w = true → r₂.covers w = true → r₁ = r₂

/-- Decoding an encoded well-formed instruction gives it back, as a word and as two bytes ahead of any others. -/
def Obligations.EncodeThenDecodeGivesBackTheInstruction : Prop :=
  ∀ i : Instr, i.wellFormed = true →
    decode (encode i) = i ∧ ∀ rest : List Byte, decodeBytes (encodeBytes i ++ rest) = .ok (i, rest)

/-- Every word decodes to a well-formed instruction that encodes to it again: so a fault that records the instruction's
word records the word that was fetched, bit for bit. -/
def Obligations.DecodeThenEncodeGivesBackTheWord : Prop :=
  ∀ w : Word, (decode w).wellFormed = true ∧ encode (decode w) = w

/-- 30_encoding R81: the word of each spelling, and its two bytes, the high one at the lower address. -/
def Obligations.EncodingFromSyntax : Prop :=
  encode .halt = 0x0000 ∧ encode .ret = 0x00EE ∧
  (∀ a : Addr, encode (.call a) = 0x2000#16 ||| a.setWidth 16) ∧
  (∀ x y : Nibble, encode (.add x y) = 0x8000#16 ||| x.setWidth 16 <<< 8 ||| y.setWidth 16 <<< 4 ||| 0x4#16) ∧
  (∀ h : Word, encode (.unimplemented h) = h) ∧
  ∀ i : Instr, ∃ hi lo : Byte, encodeBytes i = [hi, lo] ∧
    hi = (encode i >>> 8).setWidth 8 ∧ lo.toNat = (encode i).toNat % 256

/-! ## Fetch, advance and the step -/

/-- 20_memory R51 and R53: a fetch with pc ≤ 0x0FFE, at an even or an odd pc alike, reads the two bytes at pc and pc + 1,
the high byte first. -/
def Obligations.FetchReadsBigEndianAtAnyAlignment : Prop :=
  ∀ s : State, s.pc.toNat ≤ 0x0FFE → ∃ w : Word, s.fetch = some w ∧
    w = (s.mem.read (BitVec.ofNat 12 s.pc.toNat)).setWidth 16 <<< 8 |||
      (s.mem.read (BitVec.ofNat 12 (s.pc.toNat + 1))).setWidth 16

/-- 40_cycle R102: the step of a RUNNING machine. Out of range it raises FetchOutOfRange; in range it fetches, advances,
and runs the handler of the word's op tag on the advanced state. What is added around the handler: when it leaves RUNNING
the host gets the response to run. A refusal of the handler is the step's. -/
def Obligations.StepRunsTheFetchedInstruction : Prop :=
  ∀ s : State, s.status.state = .running →
    (0x0FFE < s.pc.toNat → step s = .next (endRun (s.raise .fetchOutOfRange s.pc))) ∧
    (s.pc.toNat ≤ 0x0FFE → ∀ (i : Instr) (w : Word),
      w.toNat = 256 * (s.mem.read (BitVec.ofNat 12 s.pc.toNat)).toNat +
        (s.mem.read (BitVec.ofNat 12 (s.pc.toNat + 1))).toNat →
      ((opTag w = .halt ∧ i = .halt) ∨ (opTag w = .ret ∧ i = .ret) ∨ (opTag w = .call ∧ i = .call (fields w).nnn) ∨
        (opTag w = .add ∧ i = .add (fields w).x (fields w).y) ∨ (opTag w = .unimpl ∧ i = .unimplemented w)) →
      decode w = i ∧
      (∀ t, exec i { s with pc := s.pc + 2 } = .next t → step s = .next (endRun t)) ∧
      (∀ r, exec i { s with pc := s.pc + 2 } = .refused r → step s = .refused r))

/-- What a step adds around an instruction, `endRun`: nothing while the machine is RUNNING; at HALTED or FAULTED the
response to run (70_reset_and_hazards R246), and nothing else. -/
def Obligations.EndOfRunOnlyAnswersTheHost : Prop :=
  ∀ t : State,
    (t.status.state = .running → endRun t = t) ∧
    (t.status.state = .halted →
      endRun t = { t with host := ⟨t.host.pending, t.host.responses ++ [.halted]⟩ }) ∧
    (t.status.state = .faulted →
      endRun t =
        { t with host := ⟨t.host.pending, t.host.responses ++ [.fault t.status.cause t.status.info]⟩ })

/-- 20_memory R54: a fetch is in range exactly when pc ≤ 0x0FFE; out of range no byte matters and FetchOutOfRange is
raised, with the pc recorded and not advanced and everything else as it was (60_exceptions R204, R206). -/
def Obligations.FetchOutOfRangeFaults : Prop :=
  (∀ s : State, (∃ w, s.fetch = some w) ↔ s.pc.toNat ≤ 0x0FFE) ∧
  ∀ s : State, s.status.state = .running → 0x0FFE < s.pc.toNat → ∃ t, step s = .next t ∧
    t.status = ⟨.faulted, .fetchOutOfRange, s.pc⟩ ∧ t.pc = s.pc ∧ t.regs = s.regs ∧ t.stack = s.stack ∧ t.sp = s.sp ∧
    t.mem = s.mem ∧
    t.host = ⟨s.host.pending, s.host.responses ++ [.fault .fetchOutOfRange s.pc]⟩

/-- 10_state R29: the advance of a fetchable pc adds 2 and never wraps, reaching 0x1000 at most; a pc of 0x0FFF and above is
never taken modulo 4096: its fetch faults. -/
def Obligations.PcAdvanceNeverWraps : Prop :=
  (∀ s : State, s.pc.toNat ≤ 0x0FFE → s.advance.pc.toNat = s.pc.toNat + 2 ∧ s.advance.pc.toNat ≤ 0x1000) ∧
  (∀ s : State, s.status.state = .running → 0x0FFF ≤ s.pc.toNat →
    ∃ t, step s = .next t ∧ t.status = ⟨.faulted, .fetchOutOfRange, s.pc⟩)

/-- 40_cycle R105: the codes of the select; and the pc after each step and after each host pc write, with the select that
the control FSM drives for it. Stated on states with sp in its legal range. Host reset, which writes every element, is not
the mux's. -/
def Obligations.PcAfterEachStep : Prop :=
  (PcSel.hold.code = 0 ∧ PcSel.seq.code = 1 ∧ PcSel.call.code = 2 ∧ PcSel.ret.code = 3 ∧ PcSel.host.code = 4 ∧
    ∀ sel : PcSel, sel.code.toNat ≤ 4) ∧
  (∀ (p : OpenPorts) (cmd : Option HostCommand) (s : State), s.status.state = .running → s.sp.toNat ≤ 16 →
    ∃ t sel, step s = .next t ∧ (unitControl p cmd s).pcSel = sel ∧
    (0x0FFE < s.pc.toNat → sel = .hold ∧ t.pc = s.pc) ∧
    (s.pc.toNat ≤ 0x0FFE →
      (∀ op, opTag (s.wordAt s.pc) = op → op = .halt ∨ op = .add ∨ op = .unimpl ∨ (op = .call ∧ s.sp.toNat = 16) ∨
        (op = .ret ∧ s.sp.toNat = 0) → sel = .seq ∧ t.pc = s.pc + 2) ∧
      (opTag (s.wordAt s.pc) = .call → s.sp.toNat < 16 →
        sel = .call ∧ t.pc = (fields (s.wordAt s.pc)).nnn.setWidth 16) ∧
      (opTag (s.wordAt s.pc) = .ret → 0 < s.sp.toNat →
        sel = .ret ∧ t.pc = s.entry (BitVec.ofNat 4 (s.sp.toNat - 1))))) ∧
  (∀ (p : OpenPorts) (s : State), s.status.state ≠ .running →
    (∀ v, s.status.state ≠ .faulted →
      (unitControl p (some (.writePc v)) s).pcSel = .host ∧ (hostCommand (.writePc v) s).pc = v) ∧
    (∀ c, c ≠ .reset → (∀ v, c = .writePc v → s.status.state = .faulted) →
      (unitControl p (some c) s).pcSel = .hold ∧ (hostCommand c s).pc = s.pc) ∧
    (unitControl p none s).pcSel = .hold ∧
    (s.host.pending = [] → ∃ t, step s = .next t ∧ t.pc = s.pc))

/-! ## ADD -/

/-- 41_alu R140: the alu's two outputs as arithmetic. -/
def Obligations.AluAddsModulo256WithCarry : Prop :=
  ∀ a b : Byte, (aluSum a b).toNat = (a.toNat + b.toNat) % 256 ∧
    (aluCarry a b).toNat = if 255 < a.toNat + b.toNat then 1 else 0

/-- 41_alu R141 and R143: ADD for every x and y, register 15 as either operand included. The state it acts on is already
advanced, so its pc is fpc + 2 and stays so. -/
def Obligations.AddWritesSumThenFlag : Prop :=
  ∀ x y : Nibble, decode (0x8#4 ++ x ++ y ++ 0x4#4) = .add x y ∧
    ∀ s : State, ∃ t, exec (.add x y) s = .next t ∧
      (x ≠ 15 → (t.reg x).toNat = ((s.reg x).toNat + (s.reg y).toNat) % 256) ∧
      (t.reg 15).toNat = (if 255 < (s.reg x).toNat + (s.reg y).toNat then 1 else 0) ∧
      (∀ r : Nibble, r ≠ x → r ≠ 15 → t.reg r = s.reg r) ∧
      t.pc = s.pc ∧ t.stack = s.stack ∧ t.sp = s.sp ∧ t.mem = s.mem ∧ t.status = s.status ∧ t.host = s.host

/-- 10_state R23: after ADD register 15 is 0 or 1; no other instruction changes it; a host write may leave any value in it;
it is 0 at reset. -/
def Obligations.FlagRegisterAfterEachInstruction : Prop :=
  (∀ (x y : Nibble) (s : State), ∃ t, exec (.add x y) s = .next t ∧ (t.reg 15 = 0 ∨ t.reg 15 = 1)) ∧
  (∀ (i : Instr) (s t : State), (∀ x y, i ≠ .add x y) → exec i s = .next t → t.reg 15 = s.reg 15) ∧
  (∀ (v : Byte) (s : State), s.status.state = .idle ∨ s.status.state = .halted →
    (hostCommand (.writeReg 15 v) s).reg 15 = v) ∧
  State.reset.reg 15 = 0

/-! ## CALL and RETURN -/

/-- 42_stack R163, 60_exceptions R201: CALL for every target. Below a full stack it stores the advanced pc in `stack[sp]`,
raises sp and jumps; at a full stack it raises StackOverflow with its word and changes nothing else. -/
def Obligations.CallPushesAndJumpsOrOverflows : Prop :=
  ∀ nnn : Addr, decode (0x2#4 ++ nnn) = .call nnn ∧
    (∀ s : State, s.sp.toNat < 16 → ∃ t, exec (.call nnn) s = .next t ∧
      (∀ j : Nibble, t.entry j = if j.toNat = s.sp.toNat then s.pc else s.entry j) ∧
      t.sp.toNat = s.sp.toNat + 1 ∧ t.pc = nnn.setWidth 16 ∧
      t.regs = s.regs ∧ t.mem = s.mem ∧ t.status = s.status ∧ t.host = s.host) ∧
    (∀ s : State, s.sp.toNat = 16 → ∃ t, exec (.call nnn) s = .next t ∧
      t.status = ⟨.faulted, .stackOverflow, 0x2#4 ++ nnn⟩ ∧
      t.pc = s.pc ∧ t.stack = s.stack ∧ t.sp = s.sp ∧ t.regs = s.regs ∧ t.mem = s.mem ∧ t.host = s.host)

/-- 42_stack R164, 60_exceptions R202: RETURN. With a live entry it lowers sp and takes the top entry, which it does not
clear, as pc, an address in 0x0002–0x1000 in any state that meets the invariant; at an empty stack it raises StackUnderflow
with its word and changes nothing else. -/
def Obligations.ReturnPopsOrUnderflows : Prop :=
  decode 0x00EE = .ret ∧
    (∀ s : State, 0 < s.sp.toNat → s.sp.toNat ≤ 16 → ∃ t, exec .ret s = .next t ∧
      t.sp.toNat = s.sp.toNat - 1 ∧ t.pc = s.entry (BitVec.ofNat 4 (s.sp.toNat - 1)) ∧
      t.stack = s.stack ∧ t.regs = s.regs ∧ t.mem = s.mem ∧ t.status = s.status ∧ t.host = s.host) ∧
    (∀ s : State, s.Inv → 0 < s.sp.toNat → ∃ t, exec .ret s = .next t ∧ 0x0002 ≤ t.pc.toNat ∧ t.pc.toNat ≤ 0x1000) ∧
    (∀ s : State, s.sp.toNat = 0 → ∃ t, exec .ret s = .next t ∧
      t.status = ⟨.faulted, .stackUnderflow, 0x00EE⟩ ∧
      t.pc = s.pc ∧ t.stack = s.stack ∧ t.sp = s.sp ∧ t.regs = s.regs ∧ t.mem = s.mem ∧ t.host = s.host)

/-- 93_implementation_defined section 2: sp values 17–31, unreachable, are refused by the two instructions that use sp. -/
def Obligations.UnreachableStackPointerIsRefused : Prop :=
  ∀ s : State, 16 < s.sp.toNat →
    (∀ nnn : Addr, exec (.call nnn) s = .refused .stackPointerUnreachable) ∧
    exec .ret s = .refused .stackPointerUnreachable

/-- 42_stack R166, the source's round trip: with pc = p before the CALL, pc = nnn and the top of the stack is p + 2 after it;
the RETURN comes back to p + 2 with sp as before, and the popped entry keeps its value (10_state R32). -/
def Obligations.CallThenReturnComesBack : Prop :=
  ∀ (nnn : Addr) (s : State), s.status.state = .running → s.sp.toNat < 16 →
    ∃ u t, runInstrs [.call nnn] s = some u ∧ u.pc = nnn.setWidth 16 ∧ u.sp.toNat = s.sp.toNat + 1 ∧
      u.entry (BitVec.ofNat 4 s.sp.toNat) = s.pc + 2 ∧
      runInstrs [.call nnn, .ret] s = some t ∧ t.pc = s.pc + 2 ∧ t.sp = s.sp ∧
      t.entry (BitVec.ofNat 4 s.sp.toNat) = s.pc + 2 ∧ t.regs = s.regs ∧ t.mem = s.mem

/-- 42_stack R166: seventeen nested CALLs without any RETURN, to any targets, overflow exactly on the seventeenth: each of
the first sixteen goes through, and the next one raises StackOverflow. -/
def Obligations.SeventeenthNestedCallOverflows : Prop :=
  ∀ (targets : List Addr) (s : State), targets.length ≤ 16 → s.status.state = .running → s.sp.toNat = 0 →
    ∃ t, runInstrs (targets.map .call) s = some t ∧ t.sp.toNat = targets.length ∧ t.status = s.status ∧
      (targets.length = 16 → ∀ nnn : Addr, ∃ u, exec (.call nnn) t.advance = .next u ∧
        u.status = ⟨.faulted, .stackOverflow, 0x2#4 ++ nnn⟩ ∧ u.sp = t.sp ∧ u.stack = t.stack)

/-- 42_stack R164 and R166: a RETURN resumes at the address pushed by the most recent unmatched CALL, whatever balanced
instructions ran in between, with sp and every entry below it as they were; memory never changes. -/
def Obligations.BalancedBodyReturnsToTheCaller : Prop :=
  ∀ (body : List Instr), Balanced body → ∀ (nnn : Addr) (s t : State), s.status.state = .running →
    runInstrs (.call nnn :: (body ++ [.ret])) s = some t →
    t.pc = s.pc + 2 ∧ t.sp = s.sp ∧ (∀ j : Nibble, j.toNat < s.sp.toNat → t.entry j = s.entry j) ∧ t.mem = s.mem ∧
    t.status = s.status

/-! ## HALT and unimplemented words -/

/-- 40_cycle R108: only the all-zero word halts; HALT enters HALTED and changes nothing else, and a RUNNING machine that
fetches two zero bytes, loaded or not, ends its run with pc two further. -/
def Obligations.HaltEndsTheRunNormally : Prop :=
  (∀ w : Word, decode w = .halt ↔ w = 0x0000) ∧
  (∀ s : State, ∃ t, exec .halt s = .next t ∧ t.status = { s.status with state := .halted } ∧
    t.regs = s.regs ∧ t.pc = s.pc ∧ t.stack = s.stack ∧ t.sp = s.sp ∧ t.mem = s.mem ∧ t.host = s.host) ∧
  (∀ s : State, s.status.state = .running → s.pc.toNat ≤ 0x0FFE →
    s.mem.read (BitVec.ofNat 12 s.pc.toNat) = 0x00 → s.mem.read (BitVec.ofNat 12 (s.pc.toNat + 1)) = 0x00 →
    ∃ t, step s = .next t ∧ t.status.state = .halted ∧ t.pc = s.pc + 2 ∧ t.regs = s.regs ∧ t.stack = s.stack ∧
      t.sp = s.sp ∧ t.mem = s.mem ∧ t.host = ⟨s.host.pending, s.host.responses ++ [.halted]⟩)

/-- 40_cycle R101 and 70_reset_and_hazards R246 (D7): after HALT a second run continues at the HALT's address plus 2 with
all state kept; after a HALT at 0x0FFE its first fetch faults with 0x1000. -/
def Obligations.RunAfterHaltContinues : Prop :=
  ∀ (s : State) (rest : List HostCommand), s.status.state = .running → s.pc.toNat ≤ 0x0FFE →
    s.wordAt s.pc = 0x0000 → s.host.pending = .run :: rest →
    (∃ t, steps 2 s = some t ∧ t.status = s.status ∧ t.pc = s.pc + 2 ∧ t.regs = s.regs ∧ t.stack = s.stack ∧
      t.sp = s.sp ∧ t.mem = s.mem ∧ t.host = ⟨rest, s.host.responses ++ [.halted]⟩) ∧
    (s.pc.toNat = 0x0FFE → ∃ t, steps 3 s = some t ∧ t.status = ⟨.faulted, .fetchOutOfRange, 0x1000⟩ ∧
      t.pc = 0x1000)

/-- 60_exceptions R203: a word no handler matches decodes to itself, raw, and raises UnimplementedOpcode with that exact
word; nothing else changes, and it is never a no-op. -/
def Obligations.UnimplementedWordTakesTheFault : Prop :=
  (∀ w : Word, opTag w = .unimpl → decode w = .unimplemented w) ∧
  ∀ (w : Word) (s : State), ∃ t, exec (.unimplemented w) s = .next t ∧
    t.status = ⟨.faulted, .unimplementedOpcode, w⟩ ∧
    t.regs = s.regs ∧ t.pc = s.pc ∧ t.stack = s.stack ∧ t.sp = s.sp ∧ t.mem = s.mem ∧ t.host = s.host

/-! ## Frames and faults -/

/-- The frame of all five rows (10_state R21, R34; 42_stack R165): every byte of memory as before; every register but ADD's
x and register 15; every stack entry but the one CALL pushes to, at `sp`; sp but for CALL and RETURN; the status register
for ADD, and for CALL and RETURN that do not fault; the host's port. -/
def Obligations.EveryInstructionKeepsItsFrame : Prop :=
  ∀ (i : Instr) (s t : State), exec i s = .next t →
    (∀ a : Addr, t.mem.read a = s.mem.read a) ∧
    (∀ r : Nibble, (∀ x y, i = .add x y → r ≠ x ∧ r ≠ 15) → t.reg r = s.reg r) ∧
    (∀ j : Nibble, (∀ nnn, i = .call nnn → j.toNat ≠ s.sp.toNat) → t.entry j = s.entry j) ∧
    ((∀ nnn, i ≠ .call nnn) → i ≠ .ret → t.sp = s.sp) ∧
    ((∀ x y, i = .add x y → t.status = s.status) ∧
      (∀ nnn, i = .call nnn → s.sp.toNat ≠ 16 → t.status = s.status) ∧
      (i = .ret → s.sp.toNat ≠ 0 → t.status = s.status) ∧
      (i = .halt → t.status.cause = s.status.cause ∧ t.status.info = s.status.info)) ∧
    t.host = s.host

/-- 60_exceptions R200 and R209: the four faults, their conditions in their order, their codes and what info records; no
other condition faults. On states with sp in its legal range. -/
def Obligations.FourFaultsInTheirOrder : Prop :=
  (∀ s : State, s.status.state = .running → s.sp.toNat ≤ 16 → ∃ t, step s = .next t ∧
    (0x0FFE < s.pc.toNat → t.status = ⟨.faulted, .fetchOutOfRange, s.pc⟩) ∧
    (s.pc.toNat ≤ 0x0FFE → opTag (s.wordAt s.pc) = .unimpl →
      t.status = ⟨.faulted, .unimplementedOpcode, s.wordAt s.pc⟩) ∧
    (s.pc.toNat ≤ 0x0FFE → opTag (s.wordAt s.pc) = .call → s.sp.toNat = 16 →
      t.status = ⟨.faulted, .stackOverflow, s.wordAt s.pc⟩) ∧
    (s.pc.toNat ≤ 0x0FFE → opTag (s.wordAt s.pc) = .ret → s.sp.toNat = 0 →
      t.status = ⟨.faulted, .stackUnderflow, 0x00EE⟩) ∧
    (s.pc.toNat ≤ 0x0FFE → opTag (s.wordAt s.pc) ≠ .unimpl →
      ¬ (opTag (s.wordAt s.pc) = .call ∧ s.sp.toNat = 16) → ¬ (opTag (s.wordAt s.pc) = .ret ∧ s.sp.toNat = 0) →
      t.status.state ≠ .faulted)) ∧
  Cause.none.code = 0 ∧ Cause.stackOverflow.code = 1 ∧ Cause.stackUnderflow.code = 2 ∧
  Cause.unimplementedOpcode.code = 3 ∧ Cause.fetchOutOfRange.code = 4

/-- 60_exceptions R206: the state each fault leaves, and that it is then frozen: a FAULTED machine's core does not change by
any step that does not perform the host's reset. -/
def Obligations.FaultLeavesAPreciseFrozenState : Prop :=
  (∀ s t : State, s.status.state = .running → step s = .next t → t.status.state = .faulted →
    t.regs = s.regs ∧ t.stack = s.stack ∧ t.sp = s.sp ∧ t.mem = s.mem ∧
    (t.status.cause = .stackOverflow → t.pc = s.pc + 2 ∧ s.sp = 16) ∧
    (t.status.cause = .stackUnderflow → t.pc = s.pc + 2 ∧ s.sp = 0) ∧
    (t.status.cause = .unimplementedOpcode → t.pc = s.pc + 2) ∧
    (t.status.cause = .fetchOutOfRange → t.pc = s.pc)) ∧
  (∀ s t : State, s.status.state = .faulted → (∀ rest, s.host.pending ≠ .reset :: rest) → step s = .next t →
    s.SameCore t)

/-- 60_exceptions R207: a FAULTED machine takes no run, which it refuses, and it leaves FAULTED only by host reset. -/
def Obligations.OnlyResetLeavesFaulted : Prop :=
  (∀ s t : State, s.status.state = .faulted → step s = .next t → t.status.state ≠ .faulted →
    ∃ rest, s.host.pending = .reset :: rest) ∧
  (∀ (s : State) (rest : List HostCommand), s.status.state = .faulted → s.host.pending = .run :: rest →
    step s = .next { s with host := ⟨rest, s.host.responses ++ [.refused]⟩ })

/-! ## The control FSM and the host -/

/-- The 24-bit status value's fields (10_state R35) and the codes of the FSM states (40_cycle R100). -/
def Obligations.StatusWordLayout : Prop :=
  (∀ st : Status, st.word.toNat % 4 = st.state.code.toNat ∧ st.word.toNat / 4 % 8 = st.cause.code.toNat ∧
    st.word.toNat / 32 % 8 = 0 ∧ st.word.toNat / 256 = st.info.toNat) ∧
  FsmState.idle.code = 0 ∧ FsmState.running.code = 1 ∧ FsmState.halted.code = 2 ∧ FsmState.faulted.code = 3

/-- 40_cycle R101: the transitions of the control FSM, each with its effect and the response to run. What becomes of the
host's port at a reset is another statement's (HostResetKeepsTheHostsPort). -/
def Obligations.ControlFsmTransitions : Prop :=
  (∀ s t : State, s.status.state = .running → step s = .next t →
    (t.status.state = .halted ↔ s.pc.toNat ≤ 0x0FFE ∧ s.wordAt s.pc = 0x0000) ∧
    (t.status.state = .faulted ↔ 0x0FFE < s.pc.toNat ∨ opTag (s.wordAt s.pc) = .unimpl ∨
      (opTag (s.wordAt s.pc) = .call ∧ s.sp.toNat = 16) ∨ (opTag (s.wordAt s.pc) = .ret ∧ s.sp.toNat = 0)) ∧
    t.status.state ≠ .idle ∧ t.host.pending = s.host.pending ∧
    (t.status.state = .running → t.host = s.host) ∧
    (t.status.state = .halted → t.host.responses = s.host.responses ++ [.halted]) ∧
    (t.status.state = .faulted → t.status.cause ≠ .none ∧
      t.host.responses = s.host.responses ++ [.fault t.status.cause t.status.info])) ∧
  (∀ s : State, s.status.state ≠ .running → State.reset.SameCore (hostCommand .reset s)) ∧
  (∀ s : State, s.status.state = .idle ∨ s.status.state = .halted →
    hostCommand .run s = { s with status := { s.status with state := .running } }) ∧
  (∀ s : State, s.status.state = .faulted →
    hostCommand .run s = { s with host := ⟨s.host.pending, s.host.responses ++ [.refused]⟩ }) ∧
  (∀ (s : State) (c : HostCommand), s.status.state ≠ .running → c ≠ .reset → c ≠ .run →
    (hostCommand c s).status = s.status)

/-- What ties the host's commands to the step: a machine that is not RUNNING performs the oldest pending command, one a step
(70_reset_and_hazards R250), and holds everything when none is pending. The model's choice, log entries 1 and 2. -/
def Obligations.StoppedStepPerformsTheOldestCommand : Prop :=
  ∀ s : State, s.status.state ≠ .running →
    (s.host.pending = [] → step s = .next s) ∧
    (∀ c rest, s.host.pending = c :: rest →
      step s = .next (hostCommand c { s with host := ⟨rest, s.host.responses⟩ }))

/-- 40_cycle R111, 70_reset_and_hazards R246: a RUNNING machine goes on RUNNING and answers nothing, or ends its run in
HALTED and answers Halted, or ends it in FAULTED and answers the fault its status register records. -/
def Obligations.RunEndsOnlyHaltedOrFaulted : Prop :=
  ∀ s t : State, s.status.state = .running → step s = .next t →
    (t.status.state = .running ∧ t.host.responses = s.host.responses) ∨
    (t.status.state = .halted ∧ t.completedNormally ∧ t.host.responses = s.host.responses ++ [.halted]) ∨
    (t.status.state = .faulted ∧ ¬ t.completedNormally ∧ t.status.cause ≠ .none ∧
      t.host.responses = s.host.responses ++ [.fault t.status.cause t.status.info])

/-- 70_reset_and_hazards R248: no command has a move while the machine is RUNNING: over any number of steps that start in
RUNNING states, no pending command is taken, reset and reads included. -/
def Obligations.CommandsWaitWhileRunning : Prop :=
  ∀ (n : Nat) (s t : State), (∀ m < n, ∀ u, steps m s = some u → u.status.state = .running) → steps n s = some t →
    t.host.pending = s.host.pending

/-- 70_reset_and_hazards R243: a load writes its bytes from the chosen offset up and no other byte, or, if it would pass
address 0x0FFF, no byte at all; the rest of the machine is as it was. Memory is in its canonical form, which every step
keeps (StepKeepsInvariant). -/
def Obligations.LoadWritesItsBytesOrNothing : Prop :=
  ∀ (s : State) (a : Nat) (b : List Byte), s.mem.wf = true → s.status.state = .idle ∨ s.status.state = .halted →
    ∃ t, hostCommand (.load a b) s = t ∧
      (4096 < a + b.length → t.mem = s.mem ∧ t.host = ⟨s.host.pending, s.host.responses ++ [.loadOutOfRange]⟩) ∧
      (a + b.length ≤ 4096 →
        (∀ k (hk : k < b.length), t.mem.read (BitVec.ofNat 12 (a + k)) = b[k]) ∧
        (∀ c : Addr, c.toNat < a ∨ a + b.length ≤ c.toNat → t.mem.read c = s.mem.read c) ∧
        t.host = ⟨s.host.pending, s.host.responses ++ [.ok]⟩) ∧
      t.regs = s.regs ∧ t.pc = s.pc ∧ t.stack = s.stack ∧ t.sp = s.sp ∧ t.status = s.status

/-- 70_reset_and_hazards R244: write_reg sets any register, 15 included, to any value; nothing else changes. -/
def Obligations.WriteRegSetsAnyRegister : Prop :=
  ∀ (s : State) (i : Nibble) (v : Byte), s.status.state = .idle ∨ s.status.state = .halted →
    ∃ t, hostCommand (.writeReg i v) s = t ∧ t.reg i = v ∧ (∀ r : Nibble, r ≠ i → t.reg r = s.reg r) ∧
      t.pc = s.pc ∧ t.stack = s.stack ∧ t.sp = s.sp ∧ t.mem = s.mem ∧ t.status = s.status ∧
      t.host = ⟨s.host.pending, s.host.responses ++ [.ok]⟩

/-- 70_reset_and_hazards R245: write_pc sets pc to any value and checks nothing; a value above 0x0FFE faults at the first
fetch of the next run; no command but reset changes sp or a stack entry, or the cause and info of status, and only run and
reset change its state. -/
def Obligations.WritePcUncheckedAndStackOutOfReach : Prop :=
  (∀ (s : State) (v : Word), s.status.state = .idle ∨ s.status.state = .halted →
    hostCommand (.writePc v) s = { s with pc := v, host := ⟨s.host.pending, s.host.responses ++ [.ok]⟩ }) ∧
  (∀ (s : State) (v : Word), s.status.state = .idle ∨ s.status.state = .halted → 0x0FFE < v.toNat →
    ∃ t, step (hostCommand .run (hostCommand (.writePc v) s)) = .next t ∧
      t.status = ⟨.faulted, .fetchOutOfRange, v⟩ ∧ t.pc = v) ∧
  (∀ (s : State) (c : HostCommand), c ≠ .reset →
    (hostCommand c s).sp = s.sp ∧ (hostCommand c s).stack = s.stack ∧
    (hostCommand c s).status.cause = s.status.cause ∧ (hostCommand c s).status.info = s.status.info ∧
    (c ≠ .run → (hostCommand c s).status.state = s.status.state))

/-- 70_reset_and_hazards R247: each read command answers its value, in IDLE, HALTED and FAULTED, and changes nothing. -/
def Obligations.ReadsAnswerAndChangeNothing : Prop :=
  ∀ (s : State) (c : HostCommand) (r : HostResponse), s.status.state ≠ .running →
    ((∃ i, c = .readReg i ∧ r = .regValue (s.reg i)) ∨ (∃ a, c = .readMem a ∧ r = .memValue (s.mem.read a)) ∨
      (c = .readPc ∧ r = .pcValue s.pc) ∨ (c = .readSp ∧ r = .spValue s.sp) ∨
      (∃ j, c = .readStack j ∧ r = .stackValue (s.entry j)) ∨
      (c = .readStatus ∧ r = .statusValue s.status.word)) →
    hostCommand c s = { s with host := ⟨s.host.pending, s.host.responses ++ [r]⟩ }

/-- 70_reset_and_hazards R242: in FAULTED, load, write_reg, write_pc and run answer Refused and change nothing. -/
def Obligations.FaultedRefusesChanges : Prop :=
  ∀ (s : State) (c : HostCommand), s.status.state = .faulted →
    ((∃ a b, c = .load a b) ∨ (∃ i v, c = .writeReg i v) ∨ (∃ v, c = .writePc v) ∨ c = .run) →
    hostCommand c s = { s with host := ⟨s.host.pending, s.host.responses ++ [.refused]⟩ }

/-- 70_reset_and_hazards R240: reset, from any state that is not RUNNING, gives every element its reset value; it is the only
command that leaves FAULTED; it has no move while RUNNING, where no pending command is taken. -/
def Obligations.HostResetRestoresEveryElement : Prop :=
  (∀ s : State, s.status.state ≠ .running → ∃ t, hostCommand .reset s = t ∧
    (∀ i : Nibble, t.reg i = 0) ∧ t.pc = 0x0000 ∧ (∀ j : Nibble, t.entry j = 0) ∧ t.sp = 0 ∧
    (∀ a : Addr, t.mem.read a = 0x00) ∧ t.status = ⟨.idle, .none, 0⟩) ∧
  (∀ (s : State) (c : HostCommand), s.status.state = .faulted → (hostCommand c s).status.state ≠ .faulted →
    c = .reset) ∧
  (∀ s t : State, s.status.state = .running → step s = .next t → t.host.pending = s.host.pending)

/-- 70_reset_and_hazards R249: from reset, a load that fits, a write_pc and a run leave the machine RUNNING at that pc with
those bytes in memory, 0x00 everywhere else, and every other element at its reset value. -/
def Obligations.BootPlacesTheBytesAndRuns : Prop :=
  ∀ (a : Nat) (b : List Byte) (v : Word) (rest : List HostCommand), a + b.length ≤ 4096 →
    ∃ t, steps 3 { State.reset with host := ⟨.load a b :: .writePc v :: .run :: rest, []⟩ } = some t ∧
      t.status = ⟨.running, .none, 0⟩ ∧ t.pc = v ∧ t.regs = State.reset.regs ∧ t.stack = State.reset.stack ∧ t.sp = 0 ∧
      (∀ k (hk : k < b.length), t.mem.read (BitVec.ofNat 12 (a + k)) = b[k]) ∧
      (∀ c : Addr, c.toNat < a ∨ a + b.length ≤ c.toNat → t.mem.read c = 0x00) ∧
      t.host = ⟨rest, [.ok, .ok]⟩

/-- A machine fresh from reset that is run with nothing loaded halts after one step, since its memory reads 0x00
(95_test_vectors.md section 2.6, 40_cycle R108). -/
def Obligations.FreshMachineHaltsAtOnce : Prop :=
  ∃ t, steps 2 { State.reset with host := ⟨[.run], []⟩ } = some t ∧
    t = { State.reset with pc := 0x0002, status := ⟨.halted, .none, 0⟩, host := ⟨[], [.halted]⟩ }

/-! ## Memory and whole-machine claims -/

/-- Only the host's load and reset change memory (10_state R34, 20_memory R61); in particular no RUNNING step does. -/
def Obligations.OnlyTheHostChangesMemory : Prop :=
  ∀ s t : State, step s = .next t → t.mem ≠ s.mem →
    s.status.state ≠ .running ∧
      ∃ c rest, s.host.pending = c :: rest ∧ (c = .reset ∨ (∃ a b, c = .load a b ∧ s.status.state ≠ .faulted))

/-- The canonical form of memory: two memories in it that read the same at every address are equal data. The form is the
model's choice (log entry 15). -/
def Obligations.CanonicalMemoriesReadingAlikeAreEqual : Prop :=
  ∀ m₁ m₂ : Memory, m₁.wf = true → m₂.wf = true → (∀ a : Addr, m₁.read a = m₂.read a) → m₁ = m₂

/-- RUNNING, the seven units together make the instruction step (00_scope R3; 10_state R24; 30_encoding R72; 40_cycle R103,
R105, R106; 41_alu R140; 42_stack R160), whatever command the host holds against it and whatever value the ports take that
the spec leaves open (93_implementation_defined section 2). Not RUNNING, the units with what the model puts beside them make
the core of each host command's effect, and hold everything when there is none. That the control FSM gets the host's command
and drives from it `host_wen`, the load and the reset is the model's choice, log entry 14; the load into memory and the
construction are made by no unit. So both make every step's core, with the host's oldest pending command as the command
issued (the model's choice, log entry 1). -/
def Obligations.UnitsMakeTheInstructionStep : Prop :=
  (∀ (p : OpenPorts) (cmd : Option HostCommand) (s : State), s.status.state = .running → s.sp.toNat ≤ 16 →
    instructionStep s = .next (unitStep p cmd s)) ∧
  (∀ (p : OpenPorts) (s : State), s.status.state ≠ .running →
    (∀ c, (hostCommand c s).SameCore (unitStep p (some c) s)) ∧ unitStep p none s = s) ∧
  ∀ (p : OpenPorts) (s : State), s.sp.toNat ≤ 16 →
    ∃ t, step s = .next t ∧ t.SameCore (unitStep p s.host.pending.head? s)

/-- 10_state R32 and R37: a program never observes a stack entry that is not live. Two RUNNING machines that differ at most
in such entries step to machines that differ at most in such entries, and give the host the same responses. -/
def Obligations.StaleStackEntriesAreNeverObserved : Prop :=
  ∀ s s' t : State, s.AgreeLive s' → s.status.state = .running → s.sp.toNat ≤ 16 → step s = .next t →
    ∃ t', step s' = .next t' ∧ t.AgreeLive t'

/-- The model's choice, log entry 12: constructing the machine leaves the host's side of the command port as it was, but for
the response ok to the reset (70_reset_and_hazards R242): no command that waits is lost, no earlier response forgotten. -/
def Obligations.HostResetKeepsTheHostsPort : Prop :=
  ∀ s : State, s.status.state ≠ .running →
    (hostCommand .reset s).host = ⟨s.host.pending, s.host.responses ++ [.ok]⟩ ∧
    ∀ rest, s.host.pending = .reset :: rest →
      ∃ t, step s = .next t ∧ State.reset.SameCore t ∧ t.host = ⟨rest, s.host.responses ++ [.ok]⟩

/-- The host's read side of the ports. `host_rdata` of the register_file is the register that `host_idx` names, the index of
the read_reg or the write_reg, at the start of the step; the decoder's two read ports are the registers x and y (10_state
R24). The stack_controller's `host_rdata` is the entry a read_stack names, live or not, and `sp_out` is sp (42_stack R160).
A host read answers what these ports carry (70_reset_and_hazards R247) and changes nothing. That the host's index stands at
the port while its command is performed is the wire of log entry 14, the model's choice. -/
def Obligations.HostReadsComeThroughTheUnitsPorts : Prop :=
  ∀ (p : OpenPorts) (s : State), s.status.state ≠ .running →
    (∀ cmd, (unitReads p cmd s).raData = s.reg (fields (unitFetch p s).instr).x ∧
      (unitReads p cmd s).rbData = s.reg (fields (unitFetch p s).instr).y ∧ (unitStack p cmd s).spOut = s.sp) ∧
    (∀ i, (unitReads p (some (.readReg i)) s).hostRdata = s.reg i ∧
      unitRead p (some (.readReg i)) s = some (.regValue (s.reg i))) ∧
    (∀ i v, (unitReads p (some (.writeReg i v)) s).hostRdata = s.reg i) ∧
    (∀ j, (unitStack p (some (.readStack j)) s).hostRdata = s.entry j ∧
      unitRead p (some (.readStack j)) s = some (.stackValue (s.entry j))) ∧
    unitRead p (some .readSp) s = some (.spValue s.sp) ∧
    ∀ c r, unitRead p (some c) s = some r →
      hostCommand c s = { s with host := ⟨s.host.pending, s.host.responses ++ [r]⟩ }
end

