-- ==== Sys2Proof/Laws/Decode.lean ====
section
/-! SUPPORT. Fields, words and bytes as numbers, so that encoding claims become arithmetic. -/

namespace Sys2Proof

/-- Concatenation as arithmetic. -/
theorem toNat_append_eq {n m : Nat} (a : BitVec n) (b : BitVec m) :
    (a ++ b).toNat = a.toNat * 2 ^ m + b.toNat := by
  rw [BitVec.toNat_append, ← Nat.shiftLeft_add_eq_or_of_lt b.isLt, Nat.shiftLeft_eq]

@[simp] theorem fields_c_toNat (w : Word) : (fields w).c.toNat = w.toNat / 4096 := by
  simp only [fields, BitVec.extractLsb'_toNat, Nat.shiftRight_eq_div_pow]; omega

@[simp] theorem fields_x_toNat (w : Word) : (fields w).x.toNat = w.toNat / 256 % 16 := by
  simp only [fields, BitVec.extractLsb'_toNat, Nat.shiftRight_eq_div_pow]

@[simp] theorem fields_y_toNat (w : Word) : (fields w).y.toNat = w.toNat / 16 % 16 := by
  simp only [fields, BitVec.extractLsb'_toNat, Nat.shiftRight_eq_div_pow]

@[simp] theorem fields_d_toNat (w : Word) : (fields w).d.toNat = w.toNat % 16 := by
  simp [fields, BitVec.extractLsb'_toNat]

@[simp] theorem fields_nnn_toNat (w : Word) : (fields w).nnn.toNat = w.toNat % 4096 := by
  simp [fields, BitVec.extractLsb'_toNat]

@[simp] theorem fields_kk_toNat (w : Word) : (fields w).kk.toNat = w.toNat % 256 := by
  simp [fields, BitVec.extractLsb'_toNat]

@[simp] theorem highByte_toNat (w : Word) : (highByte w).toNat = w.toNat / 256 := by
  simp only [highByte, BitVec.extractLsb'_toNat, Nat.shiftRight_eq_div_pow]; omega

@[simp] theorem lowByte_toNat (w : Word) : (lowByte w).toNat = w.toNat % 256 := by
  simp [lowByte, BitVec.extractLsb'_toNat]

/-- The word of two bytes as a number: big-endian (20_memory R51). -/
@[simp] theorem wordOfBytes_toNat (hi lo : Byte) : (wordOfBytes hi lo).toNat = 256 * hi.toNat + lo.toNat := by
  simp only [wordOfBytes]; rw [toNat_append_eq]; omega

/-- A word's two bytes make the word again. -/
@[simp] theorem wordOfBytes_bytes (w : Word) : wordOfBytes (highByte w) (lowByte w) = w := by
  apply BitVec.eq_of_toNat_eq; simp; omega

/-- A CALL word as a number. -/
theorem encode_call_toNat (nnn : Addr) : (encode (.call nnn)).toNat = 0x2000 + nnn.toNat := by
  simp only [encode]; rw [toNat_append_eq]; simp

/-- An ADD word as a number. -/
theorem encode_add_toNat (x y : Nibble) : (encode (.add x y)).toNat = 0x8004 + x.toNat * 256 + y.toNat * 16 := by
  simp only [encode]; rw [toNat_append_eq, toNat_append_eq, toNat_append_eq]; simp; omega

/-- Decoding follows the op tag (40_cycle R102). -/
theorem decode_of_opTag_halt {w : Word} (h : opTag w = .halt) : decode w = .halt := by simp [decode, h]

theorem decode_of_opTag_ret {w : Word} (h : opTag w = .ret) : decode w = .ret := by simp [decode, h]

theorem decode_of_opTag_call {w : Word} (h : opTag w = .call) : decode w = .call (fields w).nnn := by simp [decode, h]

theorem decode_of_opTag_add {w : Word} (h : opTag w = .add) : decode w = .add (fields w).x (fields w).y := by
  simp [decode, h]

theorem decode_of_opTag_unimpl {w : Word} (h : opTag w = .unimpl) : decode w = .unimplemented w := by simp [decode, h]

/-- The op tag as a chain of tests on the word as a number (30_encoding R75). -/
theorem opTag_eq_ite (w : Word) : opTag w =
    if w.toNat = 0 then .halt
    else if w.toNat = 0xEE then .ret
    else if w.toNat / 4096 = 2 then .call
    else if w.toNat / 4096 = 8 ∧ w.toNat % 16 = 4 then .add
    else .unimpl := by
  simp only [opTag, ← BitVec.toNat_inj, fields_c_toNat, fields_d_toNat]
  rfl

/-- The masked bits of the table's CALL row: the top digit. -/
theorem covers_call (w : Word) : (⟨"CALL", 0xF000, 0x2000⟩ : OpcodeRow).covers w = true ↔ w.toNat / 4096 = 2 := by
  have hm : ∀ i < 16, (0xF000#16).getLsbD i = decide (12 ≤ i) := by decide
  have h : w &&& 0xF000#16 = (fields w).c ++ 0#12 := by
    apply BitVec.eq_of_getLsbD_eq
    intro i hi
    rw [BitVec.getLsbD_and, hm i hi, BitVec.getLsbD_append]
    by_cases h12 : i < 12
    · simp [h12]
    · have hle : 12 ≤ i := by omega
      have h4 : i - 12 < 4 := by omega
      simp [h12, hle, h4, fields]
  rw [OpcodeRow.covers, beq_iff_eq]
  change w &&& 0xF000#16 = 0x2000#16 ↔ _
  rw [h, ← BitVec.toNat_inj, toNat_append_eq, fields_c_toNat]
  simp; omega

/-- The masked bits of the table's ADD row: the top and the bottom digit. -/
theorem covers_add (w : Word) :
    (⟨"ADD", 0xF00F, 0x8004⟩ : OpcodeRow).covers w = true ↔ w.toNat / 4096 = 8 ∧ w.toNat % 16 = 4 := by
  have hm : ∀ i < 16, (0xF00F#16).getLsbD i = (decide (12 ≤ i) || decide (i < 4)) := by decide
  have h : w &&& 0xF00F#16 = (fields w).c ++ (0#8 ++ (fields w).d) := by
    apply BitVec.eq_of_getLsbD_eq
    intro i hi
    rw [BitVec.getLsbD_and, hm i hi, BitVec.getLsbD_append, BitVec.getLsbD_append]
    by_cases h4 : i < 4
    · have h12 : i < 12 := by omega
      simp [h4, h12, fields]
    · by_cases h12 : i < 12
      · simp [h4, h12]
      · have hle : 12 ≤ i := by omega
        have h16 : i - 12 < 4 := by omega
        simp [h12, hle, h16, fields]
  rw [OpcodeRow.covers, beq_iff_eq]
  change w &&& 0xF00F#16 = 0x8004#16 ↔ _
  rw [h, ← BitVec.toNat_inj, toNat_append_eq, toNat_append_eq, fields_c_toNat, fields_d_toNat]
  simp; omega

/-- A word is defined when it is one of the four patterns (opcode_table.json). -/
theorem definedWord_iff (w : Word) : definedWord w = true ↔
    w.toNat = 0 ∨ w.toNat = 0xEE ∨ w.toNat / 4096 = 2 ∨ (w.toNat / 4096 = 8 ∧ w.toNat % 16 = 4) := by
  have hall : w &&& 0xFFFF#16 = w := BitVec.and_allOnes
  have h0 : (⟨"HALT", 0xFFFF, 0x0000⟩ : OpcodeRow).covers w = true ↔ w.toNat = 0 := by
    rw [OpcodeRow.covers, beq_iff_eq]
    change w &&& 0xFFFF#16 = 0#16 ↔ _
    rw [hall, ← BitVec.toNat_inj]; rfl
  have h1 : (⟨"RETURN", 0xFFFF, 0x00EE⟩ : OpcodeRow).covers w = true ↔ w.toNat = 0xEE := by
    rw [OpcodeRow.covers, beq_iff_eq]
    change w &&& 0xFFFF#16 = 0xEE#16 ↔ _
    rw [hall, ← BitVec.toNat_inj]; rfl
  simp only [definedWord, opcodeRows, List.any_cons, List.any_nil, Bool.or_eq_true, h0, h1, covers_call, covers_add,
    Bool.false_eq_true, or_false]

end Sys2Proof
end

