-- ==== Sys2Proof/Laws/State.lean ====
section
/-! SUPPORT. One lemma per field per update of State, so that no proof unfolds a record update. -/

namespace Sys2Proof.Machine

variable (s : State)

/-! ## setReg -/

@[simp] theorem State.setReg_pc (i : Nibble) (v : Byte) : (s.setReg i v).pc = s.pc := rfl
@[simp] theorem State.setReg_stack (i : Nibble) (v : Byte) : (s.setReg i v).stack = s.stack := rfl
@[simp] theorem State.setReg_sp (i : Nibble) (v : Byte) : (s.setReg i v).sp = s.sp := rfl
@[simp] theorem State.setReg_mem (i : Nibble) (v : Byte) : (s.setReg i v).mem = s.mem := rfl
@[simp] theorem State.setReg_status (i : Nibble) (v : Byte) : (s.setReg i v).status = s.status := rfl
@[simp] theorem State.setReg_host (i : Nibble) (v : Byte) : (s.setReg i v).host = s.host := rfl
@[simp] theorem State.setReg_entry (i j : Nibble) (v : Byte) : (s.setReg i v).entry j = s.entry j := rfl

/-- A register read after a register write. -/
theorem State.reg_setReg (i j : Nibble) (v : Byte) : (s.setReg i v).reg j = if i = j then v else s.reg j := by
  simp only [State.reg, State.setReg, Vector.getElem_set, BitVec.toNat_inj]

/-! ## setPc -/

@[simp] theorem State.setPc_pc (v : Word) : (s.setPc v).pc = v := rfl
@[simp] theorem State.setPc_regs (v : Word) : (s.setPc v).regs = s.regs := rfl
@[simp] theorem State.setPc_stack (v : Word) : (s.setPc v).stack = s.stack := rfl
@[simp] theorem State.setPc_sp (v : Word) : (s.setPc v).sp = s.sp := rfl
@[simp] theorem State.setPc_mem (v : Word) : (s.setPc v).mem = s.mem := rfl
@[simp] theorem State.setPc_status (v : Word) : (s.setPc v).status = s.status := rfl
@[simp] theorem State.setPc_host (v : Word) : (s.setPc v).host = s.host := rfl
@[simp] theorem State.setPc_reg (v : Word) (i : Nibble) : (s.setPc v).reg i = s.reg i := rfl
@[simp] theorem State.setPc_entry (v : Word) (j : Nibble) : (s.setPc v).entry j = s.entry j := rfl

/-! ## setEntry, push and pop -/

@[simp] theorem State.setEntry_pc (j : Nibble) (v : Word) : (s.setEntry j v).pc = s.pc := rfl
@[simp] theorem State.setEntry_regs (j : Nibble) (v : Word) : (s.setEntry j v).regs = s.regs := rfl
@[simp] theorem State.setEntry_sp (j : Nibble) (v : Word) : (s.setEntry j v).sp = s.sp := rfl
@[simp] theorem State.setEntry_mem (j : Nibble) (v : Word) : (s.setEntry j v).mem = s.mem := rfl
@[simp] theorem State.setEntry_status (j : Nibble) (v : Word) : (s.setEntry j v).status = s.status := rfl
@[simp] theorem State.setEntry_host (j : Nibble) (v : Word) : (s.setEntry j v).host = s.host := rfl
@[simp] theorem State.setEntry_reg (j i : Nibble) (v : Word) : (s.setEntry j v).reg i = s.reg i := rfl

/-- A stack entry read after a stack entry is written. -/
theorem State.entry_setEntry (j k : Nibble) (v : Word) :
    (s.setEntry j v).entry k = if j = k then v else s.entry k := by
  simp only [State.entry, State.setEntry, Vector.getElem_set, BitVec.toNat_inj]

@[simp] theorem State.push_pc (v : Word) : (s.push v).pc = s.pc := rfl
@[simp] theorem State.push_regs (v : Word) : (s.push v).regs = s.regs := rfl
@[simp] theorem State.push_stack (v : Word) : (s.push v).stack = (s.setEntry s.pushIndex v).stack := rfl
@[simp] theorem State.push_sp (v : Word) : (s.push v).sp = s.sp + 1 := rfl
@[simp] theorem State.push_mem (v : Word) : (s.push v).mem = s.mem := rfl
@[simp] theorem State.push_status (v : Word) : (s.push v).status = s.status := rfl
@[simp] theorem State.push_host (v : Word) : (s.push v).host = s.host := rfl
@[simp] theorem State.push_reg (v : Word) (i : Nibble) : (s.push v).reg i = s.reg i := rfl

/-- A stack entry read after a push. -/
theorem State.entry_push (k : Nibble) (v : Word) : (s.push v).entry k = if s.pushIndex = k then v else s.entry k :=
  s.entry_setEntry s.pushIndex k v

@[simp] theorem State.pop_pc : s.pop.pc = s.pc := rfl
@[simp] theorem State.pop_regs : s.pop.regs = s.regs := rfl
@[simp] theorem State.pop_stack : s.pop.stack = s.stack := rfl
@[simp] theorem State.pop_sp : s.pop.sp = s.sp - 1 := rfl
@[simp] theorem State.pop_mem : s.pop.mem = s.mem := rfl
@[simp] theorem State.pop_status : s.pop.status = s.status := rfl
@[simp] theorem State.pop_host : s.pop.host = s.host := rfl
@[simp] theorem State.pop_reg (i : Nibble) : s.pop.reg i = s.reg i := rfl
@[simp] theorem State.pop_entry (j : Nibble) : s.pop.entry j = s.entry j := rfl

/-! ## enter, raise and advance -/

@[simp] theorem State.enter_pc (f : FsmState) : (s.enter f).pc = s.pc := rfl
@[simp] theorem State.enter_regs (f : FsmState) : (s.enter f).regs = s.regs := rfl
@[simp] theorem State.enter_stack (f : FsmState) : (s.enter f).stack = s.stack := rfl
@[simp] theorem State.enter_sp (f : FsmState) : (s.enter f).sp = s.sp := rfl
@[simp] theorem State.enter_mem (f : FsmState) : (s.enter f).mem = s.mem := rfl
@[simp] theorem State.enter_host (f : FsmState) : (s.enter f).host = s.host := rfl
@[simp] theorem State.enter_status (f : FsmState) : (s.enter f).status = { s.status with state := f } := rfl
@[simp] theorem State.enter_reg (f : FsmState) (i : Nibble) : (s.enter f).reg i = s.reg i := rfl
@[simp] theorem State.enter_entry (f : FsmState) (j : Nibble) : (s.enter f).entry j = s.entry j := rfl

@[simp] theorem State.raise_pc (c : Cause) (w : Word) : (s.raise c w).pc = s.pc := rfl
@[simp] theorem State.raise_regs (c : Cause) (w : Word) : (s.raise c w).regs = s.regs := rfl
@[simp] theorem State.raise_stack (c : Cause) (w : Word) : (s.raise c w).stack = s.stack := rfl
@[simp] theorem State.raise_sp (c : Cause) (w : Word) : (s.raise c w).sp = s.sp := rfl
@[simp] theorem State.raise_mem (c : Cause) (w : Word) : (s.raise c w).mem = s.mem := rfl
@[simp] theorem State.raise_host (c : Cause) (w : Word) : (s.raise c w).host = s.host := rfl
@[simp] theorem State.raise_status (c : Cause) (w : Word) : (s.raise c w).status = ⟨.faulted, c, w⟩ := rfl
@[simp] theorem State.raise_reg (c : Cause) (w : Word) (i : Nibble) : (s.raise c w).reg i = s.reg i := rfl
@[simp] theorem State.raise_entry (c : Cause) (w : Word) (j : Nibble) : (s.raise c w).entry j = s.entry j := rfl

@[simp] theorem State.advance_pc : s.advance.pc = s.pc + 2 := rfl
@[simp] theorem State.advance_regs : s.advance.regs = s.regs := rfl
@[simp] theorem State.advance_stack : s.advance.stack = s.stack := rfl
@[simp] theorem State.advance_sp : s.advance.sp = s.sp := rfl
@[simp] theorem State.advance_mem : s.advance.mem = s.mem := rfl
@[simp] theorem State.advance_status : s.advance.status = s.status := rfl
@[simp] theorem State.advance_host : s.advance.host = s.host := rfl
@[simp] theorem State.advance_reg (i : Nibble) : s.advance.reg i = s.reg i := rfl
@[simp] theorem State.advance_entry (j : Nibble) : s.advance.entry j = s.entry j := rfl

/-! ## respond and endRun -/

@[simp] theorem State.respond_pc (r : HostResponse) : (s.respond r).pc = s.pc := rfl
@[simp] theorem State.respond_regs (r : HostResponse) : (s.respond r).regs = s.regs := rfl
@[simp] theorem State.respond_stack (r : HostResponse) : (s.respond r).stack = s.stack := rfl
@[simp] theorem State.respond_sp (r : HostResponse) : (s.respond r).sp = s.sp := rfl
@[simp] theorem State.respond_mem (r : HostResponse) : (s.respond r).mem = s.mem := rfl
@[simp] theorem State.respond_status (r : HostResponse) : (s.respond r).status = s.status := rfl
@[simp] theorem State.respond_host (r : HostResponse) :
    (s.respond r).host = ⟨s.host.pending, s.host.responses ++ [r]⟩ := rfl
@[simp] theorem State.respond_reg (r : HostResponse) (i : Nibble) : (s.respond r).reg i = s.reg i := rfl
@[simp] theorem State.respond_entry (r : HostResponse) (j : Nibble) : (s.respond r).entry j = s.entry j := rfl

@[simp] theorem endRun_pc : (endRun s).pc = s.pc := by unfold endRun; split <;> rfl
@[simp] theorem endRun_regs : (endRun s).regs = s.regs := by unfold endRun; split <;> rfl
@[simp] theorem endRun_stack : (endRun s).stack = s.stack := by unfold endRun; split <;> rfl
@[simp] theorem endRun_sp : (endRun s).sp = s.sp := by unfold endRun; split <;> rfl
@[simp] theorem endRun_mem : (endRun s).mem = s.mem := by unfold endRun; split <;> rfl
@[simp] theorem endRun_status : (endRun s).status = s.status := by unfold endRun; split <;> rfl
@[simp] theorem endRun_pending : (endRun s).host.pending = s.host.pending := by unfold endRun; split <;> rfl
@[simp] theorem endRun_reg (i : Nibble) : (endRun s).reg i = s.reg i := by unfold endRun; split <;> rfl
@[simp] theorem endRun_entry (j : Nibble) : (endRun s).entry j = s.entry j := by unfold endRun; split <;> rfl

/-! ## writeResultAndFlag -/

@[simp] theorem State.writeResultAndFlag_pc (x : Nibble) (v f : Byte) : (s.writeResultAndFlag x v f).pc = s.pc := rfl
@[simp] theorem State.writeResultAndFlag_stack (x : Nibble) (v f : Byte) :
    (s.writeResultAndFlag x v f).stack = s.stack := rfl
@[simp] theorem State.writeResultAndFlag_sp (x : Nibble) (v f : Byte) : (s.writeResultAndFlag x v f).sp = s.sp := rfl
@[simp] theorem State.writeResultAndFlag_mem (x : Nibble) (v f : Byte) : (s.writeResultAndFlag x v f).mem = s.mem := rfl
@[simp] theorem State.writeResultAndFlag_status (x : Nibble) (v f : Byte) :
    (s.writeResultAndFlag x v f).status = s.status := rfl
@[simp] theorem State.writeResultAndFlag_host (x : Nibble) (v f : Byte) :
    (s.writeResultAndFlag x v f).host = s.host := rfl
@[simp] theorem State.writeResultAndFlag_entry (x j : Nibble) (v f : Byte) :
    (s.writeResultAndFlag x v f).entry j = s.entry j := rfl

/-- A register read after a result and its flag are written: the flag first in priority. -/
theorem State.reg_writeResultAndFlag (x j : Nibble) (v f : Byte) :
    (s.writeResultAndFlag x v f).reg j = if j = 15 then f else if j = x then v else s.reg j := by
  rw [State.writeResultAndFlag, State.reg_setReg, State.reg_setReg]
  simp only [eq_comm (a := j)]

/-! ## Extensionality through the accessors -/

/-- Two register files with equal reads are equal. -/
theorem State.regs_eq_of_reg {s t : State} (h : ∀ i : Nibble, s.reg i = t.reg i) : s.regs = t.regs := by
  apply Vector.ext
  intro i hi
  simpa [State.reg, Nat.mod_eq_of_lt hi] using h (BitVec.ofNat 4 i)

/-- Two call stacks with equal entries are equal. -/
theorem State.stack_eq_of_entry {s t : State} (h : ∀ j : Nibble, s.entry j = t.entry j) : s.stack = t.stack := by
  apply Vector.ext
  intro i hi
  simpa [State.entry, Nat.mod_eq_of_lt hi] using h (BitVec.ofNat 4 i)

end Sys2Proof.Machine
end

