-- ==== Sys2Proof/Laws/Exec.lean ====
section
/-! SUPPORT. The shared operations and `exec` said once: each meaning's equation, and everything an instruction can do. -/

namespace Sys2Proof.Machine

/-! ## The alu as arithmetic (41_alu R140) -/

/-- The 9-bit sum is the mathematical sum. -/
@[simp] theorem aluSum9_toNat (a b : Byte) : (aluSum9 a b).toNat = a.toNat + b.toNat := by
  have := a.isLt
  have := b.isLt
  simp only [aluSum9, BitVec.toNat_add, BitVec.toNat_setWidth]; omega

/-- The low eight bits of the 9-bit sum, as a number. -/
theorem aluSum_toNat (a b : Byte) : (aluSum a b).toNat = (a.toNat + b.toNat) % 2 ^ 8 := by
  simp [aluSum, BitVec.extractLsb'_toNat]

/-- The flag byte is bit 8 of the 9-bit sum. -/
theorem flagByte_toNat (a b : Byte) : (flagByte (aluCarry a b)).toNat = (a.toNat + b.toNat) / 2 ^ 8 := by
  have := a.isLt
  have := b.isLt
  simp only [flagByte, aluCarry, BitVec.toNat_setWidth, BitVec.extractLsb'_toNat, aluSum9_toNat,
    Nat.shiftRight_eq_div_pow]
  omega

/-! ## The call stack's guards and indices -/

section guards
variable {s : State}

theorem State.full_iff : s.full = true ↔ s.sp.toNat = 16 := by
  simp [State.full, ← BitVec.toNat_inj]

theorem State.empty_iff : s.empty = true ↔ s.sp.toNat = 0 := by
  simp [State.empty, ← BitVec.toNat_inj]

theorem State.spUnreachable_iff : s.spUnreachable = true ↔ 16 < s.sp.toNat := by
  simp [State.spUnreachable, BitVec.lt_def]

/-- Below a full stack the push index is sp itself. -/
theorem State.pushIndex_toNat (h : s.sp.toNat < 16) : s.pushIndex.toNat = s.sp.toNat := by
  simp [State.pushIndex, Nat.mod_eq_of_lt h]

/-- The index of the top of a live stack is sp - 1. -/
theorem State.topIndex_toNat (h : 0 < s.sp.toNat) (h' : s.sp.toNat ≤ 16) : s.topIndex.toNat = s.sp.toNat - 1 := by
  simp [State.topIndex, BitVec.toNat_sub]; omega

/-- Below a full stack a push raises sp by one. -/
theorem State.push_sp_toNat (v : Word) (h : s.sp.toNat < 16) : (s.push v).sp.toNat = s.sp.toNat + 1 := by
  simp [BitVec.toNat_add]; omega

/-- A pop of a live stack lowers sp by one. -/
theorem State.pop_sp_toNat (h : 0 < s.sp.toNat) : s.pop.sp.toNat = s.sp.toNat - 1 := by
  have := s.sp.isLt
  simp [BitVec.toNat_sub]; omega

end guards

/-- A CALL target as a number: zero-extended (30_encoding R73). -/
@[simp] theorem jumpTarget_toNat (nnn : Addr) : (jumpTarget nnn).toNat = nnn.toNat := by
  have := nnn.isLt
  simp only [jumpTarget, BitVec.toNat_setWidth]; omega

/-! ## exec, one equation per way an instruction can go -/

variable (s : State)

theorem exec_halt : exec .halt s = .next (s.enter .halted) := rfl

theorem exec_add (x y : Nibble) : exec (.add x y) s =
    .next (s.writeResultAndFlag x (aluSum (s.reg x) (s.reg y)) (flagByte (aluCarry (s.reg x) (s.reg y)))) := rfl

theorem exec_unimplemented (w : Word) : exec (.unimplemented w) s = .next (s.raise .unimplementedOpcode w) := rfl

variable {s}

theorem exec_call_of_lt (nnn : Addr) (h : s.sp.toNat < 16) :
    exec (.call nnn) s = .next ((s.push s.pc).setPc (jumpTarget nnn)) := by
  have h1 : s.full = false := by rw [← Bool.not_eq_true, State.full_iff]; omega
  have h2 : s.spUnreachable = false := by rw [← Bool.not_eq_true, State.spUnreachable_iff]; omega
  simp [exec, execCall, h1, h2]

theorem exec_call_of_full (nnn : Addr) (h : s.sp.toNat = 16) :
    exec (.call nnn) s = .next (s.raise .stackOverflow (encode (.call nnn))) := by
  simp [exec, execCall, State.full_iff.mpr h]

theorem exec_call_of_gt (nnn : Addr) (h : 16 < s.sp.toNat) :
    exec (.call nnn) s = .refused .stackPointerUnreachable := by
  have h1 : s.full = false := by rw [← Bool.not_eq_true, State.full_iff]; omega
  simp [exec, execCall, h1, State.spUnreachable_iff.mpr h]

theorem exec_ret_of_live (h : 0 < s.sp.toNat) (h' : s.sp.toNat ≤ 16) :
    exec .ret s = .next (s.pop.setPc s.popData) := by
  have h1 : s.empty = false := by rw [← Bool.not_eq_true, State.empty_iff]; omega
  have h2 : s.spUnreachable = false := by rw [← Bool.not_eq_true, State.spUnreachable_iff]; omega
  simp [exec, execRet, h1, h2]

theorem exec_ret_of_empty (h : s.sp.toNat = 0) :
    exec .ret s = .next (s.raise .stackUnderflow 0x00EE) := by
  simp [exec, execRet, State.empty_iff.mpr h, encode]

theorem exec_ret_of_gt (h : 16 < s.sp.toNat) : exec .ret s = .refused .stackPointerUnreachable := by
  have h1 : s.empty = false := by rw [← Bool.not_eq_true, State.empty_iff]; omega
  simp [exec, execRet, h1, State.spUnreachable_iff.mpr h]

/-- Everything an instruction can do when it answers a next state, guards included. -/
theorem exec_cases {i : Instr} {t : State} (h : exec i s = .next t) :
    (i = .halt ∧ t = s.enter .halted) ∨
    (∃ x y, i = .add x y ∧
      t = s.writeResultAndFlag x (aluSum (s.reg x) (s.reg y)) (flagByte (aluCarry (s.reg x) (s.reg y)))) ∨
    (∃ nnn, i = .call nnn ∧ s.sp.toNat < 16 ∧ t = (s.push s.pc).setPc (jumpTarget nnn)) ∨
    (∃ nnn, i = .call nnn ∧ s.sp.toNat = 16 ∧ t = s.raise .stackOverflow (encode (.call nnn))) ∨
    (i = .ret ∧ 0 < s.sp.toNat ∧ s.sp.toNat ≤ 16 ∧ t = s.pop.setPc s.popData) ∨
    (i = .ret ∧ s.sp.toNat = 0 ∧ t = s.raise .stackUnderflow 0x00EE) ∨
    (∃ w, i = .unimplemented w ∧ t = s.raise .unimplementedOpcode w) := by
  cases i with
  | halt => rw [exec_halt] at h; cases h; simp
  | add x y => rw [exec_add] at h; cases h; exact .inr (.inl ⟨x, y, rfl, rfl⟩)
  | unimplemented w => rw [exec_unimplemented] at h; cases h; simp
  | call nnn =>
    rcases lt_trichotomy s.sp.toNat 16 with hs | hs | hs
    · rw [exec_call_of_lt nnn hs] at h; cases h; exact .inr (.inr (.inl ⟨nnn, rfl, hs, rfl⟩))
    · rw [exec_call_of_full nnn hs] at h; cases h; exact .inr (.inr (.inr (.inl ⟨nnn, rfl, hs, rfl⟩)))
    · rw [exec_call_of_gt nnn hs] at h; cases h
  | ret =>
    rcases Nat.eq_zero_or_pos s.sp.toNat with hs | hs
    · rw [exec_ret_of_empty hs] at h; cases h
      exact .inr (.inr (.inr (.inr (.inr (.inl ⟨rfl, hs, rfl⟩)))))
    · rcases Nat.lt_or_ge 16 s.sp.toNat with hg | hg
      · rw [exec_ret_of_gt hg] at h; cases h
      · rw [exec_ret_of_live hs hg] at h; cases h
        exact .inr (.inr (.inr (.inr (.inl ⟨rfl, hs, hg, rfl⟩))))

/-- With sp in its legal range every instruction answers a next state. -/
theorem exec_answers (i : Instr) (h : s.sp.toNat ≤ 16) : ∃ t, exec i s = .next t := by
  cases i with
  | halt => exact ⟨_, exec_halt s⟩
  | add x y => exact ⟨_, exec_add s x y⟩
  | unimplemented w => exact ⟨_, exec_unimplemented s w⟩
  | call nnn =>
    rcases Nat.lt_or_eq_of_le h with hs | hs
    · exact ⟨_, exec_call_of_lt nnn hs⟩
    · exact ⟨_, exec_call_of_full nnn hs⟩
  | ret =>
    rcases Nat.eq_zero_or_pos s.sp.toNat with hs | hs
    · exact ⟨_, exec_ret_of_empty hs⟩
    · exact ⟨_, exec_ret_of_live hs h⟩

end Sys2Proof.Machine
end

