-- ==== Sys2Proof/Laws/Memory.lean ====
section
/-! SUPPORT. Memory: read after write, and that every memory operation keeps the canonical form. -/

namespace Sys2Proof.Machine

/-- The canonical form from `lo` up, for a listed cell and the rest. -/
@[simp] theorem Memory.wfFrom_cons (lo k : Nat) (v : Byte) (rest : Memory) :
    Memory.wfFrom lo ((k, v) :: rest) = true ↔
      lo ≤ k ∧ k < 4096 ∧ v ≠ 0#8 ∧ Memory.wfFrom (k + 1) rest = true := by
  simp [Memory.wfFrom, and_assoc]

/-- A lower bound on the keys may be lowered. -/
theorem Memory.wfFrom_mono {lo lo' : Nat} {m : Memory} (hle : lo' ≤ lo) (h : Memory.wfFrom lo m = true) :
    Memory.wfFrom lo' m = true := by
  cases m with
  | nil => rfl
  | cons c rest =>
    obtain ⟨h1, h2⟩ := (Memory.wfFrom_cons lo c.1 c.2 rest).mp h
    exact (Memory.wfFrom_cons lo' c.1 c.2 rest).mpr ⟨le_trans hle h1, h2⟩

/-- Below the lower bound every address reads as unlisted. -/
theorem Memory.readAt_below {lo a : Nat} {m : Memory} (h : Memory.wfFrom lo m = true) (ha : a < lo) :
    m.readAt a = 0 := by
  induction m generalizing lo with
  | nil => rfl
  | cons c rest ih =>
    obtain ⟨h1, -, -, h4⟩ := (Memory.wfFrom_cons lo c.1 c.2 rest).mp h
    have hne : c.1 ≠ a := by omega
    simpa [Memory.readAt, hne] using ih h4 (by omega)

/-- Outside memory every address reads as unlisted. -/
theorem Memory.readAt_outside {lo a : Nat} {m : Memory} (h : Memory.wfFrom lo m = true) (ha : 4096 ≤ a) :
    m.readAt a = 0 := by
  induction m generalizing lo with
  | nil => rfl
  | cons c rest ih =>
    obtain ⟨-, h2, -, h4⟩ := (Memory.wfFrom_cons lo c.1 c.2 rest).mp h
    have hne : c.1 ≠ a := by omega
    simpa [Memory.readAt, hne] using ih h4

/-- A write keeps the canonical form. -/
theorem Memory.writeAt_wfFrom {lo a : Nat} {m : Memory} (v : Byte) (h : Memory.wfFrom lo m = true) (hlo : lo ≤ a)
    (ha : a < 4096) : Memory.wfFrom lo (m.writeAt a v) = true := by
  induction m generalizing lo with
  | nil => by_cases hv : v = 0#8 <;> simp [Memory.writeAt, hv, hlo, ha, Memory.wfFrom]
  | cons c rest ih =>
    obtain ⟨k, b⟩ := c
    obtain ⟨h1, h2, h3, h4⟩ := (Memory.wfFrom_cons lo k b rest).mp h
    simp only [Memory.writeAt]
    by_cases hlt : a < k
    · by_cases hv : v = 0#8
      · simpa [hlt, hv] using ⟨h1, h2, h3, h4⟩
      · simp [hlt, hv, hlo, ha, h2, h3, h4, Nat.succ_le_of_lt hlt]
    · by_cases heq : a = k
      · subst heq
        by_cases hv : v = 0#8
        · simpa [hv] using Memory.wfFrom_mono (by omega) h4
        · simp [hv, hlo, ha, h4]
      · simpa [hlt, heq] using ⟨h1, h2, h3, ih h4 (by omega)⟩

/-- Reading any address after a write to a canonical memory. -/
theorem Memory.readAt_writeAt {lo a : Nat} {m : Memory} (v : Byte) (h : Memory.wfFrom lo m = true) (c : Nat) :
    (m.writeAt a v).readAt c = if c = a then v else m.readAt c := by
  induction m generalizing lo with
  | nil =>
    by_cases hv : v = 0#8
    · by_cases hc : c = a <;> simp [Memory.writeAt, Memory.readAt, hv, hc]
    · by_cases hc : c = a
      · simp [Memory.writeAt, Memory.readAt, hv, hc]
      · simp [Memory.writeAt, Memory.readAt, hv, hc, Ne.symm hc]
  | cons cell rest ih =>
    obtain ⟨k, b⟩ := cell
    obtain ⟨h1, h2, h3, h4⟩ := (Memory.wfFrom_cons lo k b rest).mp h
    simp only [Memory.writeAt]
    by_cases hlt : a < k
    · have hka : k ≠ a := by omega
      by_cases hv : v = 0#8
      · by_cases hc : c = a
        · have := Memory.readAt_below h4 (a := a) (by omega)
          simp [hlt, hv, hc, Memory.readAt, hka, this]
        · simp [hlt, hv, hc]
      · by_cases hc : c = a
        · simp [hlt, hv, hc, Memory.readAt]
        · simp [hlt, hv, hc, Memory.readAt, Ne.symm hc]
    · by_cases heq : a = k
      · subst heq
        by_cases hv : v = 0#8
        · by_cases hc : c = a
          · simpa [hv, hc] using Memory.readAt_below h4 (Nat.lt_succ_self a)
          · simp [hv, hc, Memory.readAt, Ne.symm hc]
        · by_cases hc : c = a
          · simp [hv, hc, Memory.readAt]
          · simp [hv, hc, Memory.readAt, Ne.symm hc]
      · simp only [hlt, heq, if_false, Memory.readAt, ih h4]
        by_cases hk : k = c
        · have : c ≠ a := by omega
          simp [hk, this]
        · simp [hk]

/-- A byte written keeps the canonical form. -/
theorem Memory.write_wf {m : Memory} (a : Addr) (v : Byte) (h : m.wf = true) : (m.write a v).wf = true :=
  Memory.writeAt_wfFrom v h (Nat.zero_le _) a.isLt

/-- Reading a byte after writing one. -/
theorem Memory.read_write {m : Memory} (a c : Addr) (v : Byte) (h : m.wf = true) :
    (m.write a v).read c = if c = a then v else m.read c := by
  simp only [Memory.read, Memory.write, Memory.readAt_writeAt v h, BitVec.toNat_inj]

/-- A run of bytes written keeps the canonical form. -/
theorem Memory.writeList_wf {m : Memory} (a : Addr) (b : List Byte) (h : m.wf = true) :
    (m.writeList a b).wf = true := by
  induction b generalizing m a with
  | nil => exact h
  | cons v rest ih => exact ih (a + 1) (Memory.write_wf a v h)

/-- Reset memory is canonical. -/
theorem Memory.reset_wf : State.reset.mem.wf = true := rfl

end Sys2Proof.Machine
end

