-- ==== Sys2Proof/Laws/PerInstr.lean ====
section
/-! SUPPORT. Facts about every instruction as syntax, one lemma per constructor. -/

namespace Sys2Proof.Laws.EncodeOpTag

/-- The op tag of the row an instruction stands for (spec/opcode_table.json). -/
def tag : Instr → OpTag
  | .halt => .halt
  | .ret => .ret
  | .call _ => .call
  | .add _ _ => .add
  | .unimplemented _ => .unimpl

/-- A well-formed instruction's word has that instruction's op tag (30_encoding R75, R81). -/
def Statement (i : Instr) : Prop :=
  i.wellFormed = true → opTag (encode i) = tag i

theorem halt : Statement .halt := fun _ => rfl

theorem ret : Statement .ret := fun _ => rfl

theorem call (nnn : Addr) : Statement (.call nnn) := by
  intro _
  have := nnn.isLt
  have h : (0x2000 + nnn.toNat) / 4096 = 2 := by omega
  have h0 : 0x2000 + nnn.toNat ≠ 0xEE := by omega
  simp only [opTag_eq_ite, encode_call_toNat, h, h0, if_true, if_false, tag]
  simp

theorem add (x y : Nibble) : Statement (.add x y) := by
  intro _
  have hx := x.isLt
  have hy := y.isLt
  have h : (0x8004 + x.toNat * 256 + y.toNat * 16) / 4096 = 8 := by omega
  have hd : (0x8004 + x.toNat * 256 + y.toNat * 16) % 16 = 4 := by omega
  have h0 : 0x8004 + x.toNat * 256 + y.toNat * 16 ≠ 0 := by omega
  have h1 : 0x8004 + x.toNat * 256 + y.toNat * 16 ≠ 0xEE := by omega
  simp [opTag_eq_ite, encode_add_toNat, h, hd, h1, tag]

theorem unimplemented (w : Word) : Statement (.unimplemented w) := by
  intro hwf
  have h : ¬ definedWord w = true := by simpa [Instr.wellFormed] using hwf
  rw [definedWord_iff] at h
  simp only [not_or] at h
  simp [opTag_eq_ite, encode, tag, h]

end Sys2Proof.Laws.EncodeOpTag
end

