-- ==== Sys2Proof/Laws/Step.lean ====
section
/-! SUPPORT. `step` said once: a RUNNING machine's step, a stopped machine's, and every host command. -/

namespace Sys2Proof.Machine

variable {s t : State}

/-! ## The fetch -/

theorem fetchFault_iff (pc : Word) : fetchFault pc = true ↔ 0x0FFE < pc.toNat := by
  simp [fetchFault, BitVec.lt_def]

theorem State.fetch_of_le (h : s.pc.toNat ≤ 0x0FFE) : s.fetch = some (s.wordAt s.pc) := by
  have hf : fetchFault s.pc = false := by rw [← Bool.not_eq_true, fetchFault_iff]; omega
  simp [State.fetch, hf]

theorem State.fetch_of_gt (h : 0x0FFE < s.pc.toNat) : s.fetch = none := by
  simp [State.fetch, (fetchFault_iff s.pc).mpr h]

/-- In range, the high byte's address is the pc (40_cycle R103). -/
theorem fetchAddrHi_eq (pc : Word) : fetchAddrHi pc = BitVec.ofNat 12 pc.toNat := by
  apply BitVec.eq_of_toNat_eq
  simp [fetchAddrHi, BitVec.extractLsb'_toNat]

/-- The low byte's address is one more (40_cycle R103). -/
theorem fetchAddrLo_eq (pc : Word) : fetchAddrLo pc = BitVec.ofNat 12 (pc.toNat + 1) := by
  apply BitVec.eq_of_toNat_eq
  simp [fetchAddrLo, fetchAddrHi, BitVec.toNat_add, BitVec.extractLsb'_toNat]

/-- In range, the advance adds 2 without a wrap (10_state R29). -/
theorem State.advance_pc_toNat (h : s.pc.toNat ≤ 0x0FFE) : s.advance.pc.toNat = s.pc.toNat + 2 := by
  simp [BitVec.toNat_add]; omega

/-! ## The instruction step -/

theorem instructionStep_of_gt (h : 0x0FFE < s.pc.toNat) :
    instructionStep s = .next (s.raise .fetchOutOfRange s.pc) := by
  simp [instructionStep, State.fetch_of_gt h]

theorem instructionStep_of_le (h : s.pc.toNat ≤ 0x0FFE) :
    instructionStep s = exec (decode (s.wordAt s.pc)) s.advance := by
  simp [instructionStep, State.fetch_of_le h]

/-- Everything an instruction step can do when it answers a next state. -/
theorem instructionStep_cases (h : instructionStep s = .next t) :
    (0x0FFE < s.pc.toNat ∧ t = s.raise .fetchOutOfRange s.pc) ∨
    (s.pc.toNat ≤ 0x0FFE ∧ exec (decode (s.wordAt s.pc)) s.advance = .next t) := by
  rcases Nat.lt_or_ge 0x0FFE s.pc.toNat with hp | hp
  · rw [instructionStep_of_gt hp] at h; cases h; exact .inl ⟨hp, rfl⟩
  · rw [instructionStep_of_le hp] at h; exact .inr ⟨hp, h⟩

/-! ## The step -/

/-- A RUNNING machine's step answers a next state exactly when its instruction does. -/
theorem step_running_next (hr : s.status.state = .running) (h : instructionStep s = .next t) :
    step s = .next (endRun t) := by
  simp [step, hr, h]

theorem step_running_refused {r : Refusal} (hr : s.status.state = .running) (h : instructionStep s = .refused r) :
    step s = .refused r := by
  simp [step, hr, h]

/-- What a RUNNING machine's step came from. -/
theorem step_running_cases (hr : s.status.state = .running) (h : step s = .next t) :
    ∃ u, instructionStep s = .next u ∧ t = endRun u := by
  simp only [step, hr] at h
  split at h
  · next u hu => cases h; exact ⟨u, hu, rfl⟩
  · cases h
  · cases h

/-- A stopped machine's step is the host's. -/
theorem step_stopped (hr : s.status.state ≠ .running) : step s = .next (hostStep s) := by
  cases hs : s.status.state with
  | running => exact absurd hs hr
  | idle => simp [step, hs]
  | halted => simp [step, hs]
  | faulted => simp [step, hs]

theorem hostStep_nil (h : s.host.pending = []) : hostStep s = s := by
  simp [hostStep, h]

theorem hostStep_cons {c : HostCommand} {rest : List HostCommand} (h : s.host.pending = c :: rest) :
    hostStep s = hostCommand c { s with host := ⟨rest, s.host.responses⟩ } := by
  simp [hostStep, h]

/-- Everything the host's oldest command can do, guards included (70_reset_and_hazards R242–R247). -/
theorem hostCommand_cases (c : HostCommand) (s : State) :
    (c = .reset ∧ hostCommand c s = s.construct.respond .ok) ∨
    (s.status.state = .faulted ∧ hostCommand c s = s.respond .refused) ∨
    (s.status.state ≠ .faulted ∧ c = .run ∧ hostCommand c s = s.enter .running) ∨
    (s.status.state ≠ .faulted ∧ ∃ a b, c = .load a b ∧ hostCommand c s = s.load a b) ∨
    (s.status.state ≠ .faulted ∧ ∃ i v, c = .writeReg i v ∧ hostCommand c s = (s.setReg i v).respond .ok) ∨
    (s.status.state ≠ .faulted ∧ ∃ v, c = .writePc v ∧ hostCommand c s = (s.setPc v).respond .ok) ∨
    (c ≠ .reset ∧ ∃ r, hostCommand c s = s.respond r) := by
  by_cases hf : s.status.state = .faulted
  · cases c <;> simp [hostCommand, State.unlessFaulted, hf]
  · cases c <;> simp [hostCommand, State.unlessFaulted, hf]

/-- A load either leaves memory alone or writes its bytes; nothing else of the core changes (R243). -/
theorem load_cases (s : State) (a : Nat) (b : List Byte) :
    (4096 < a + b.length ∧ s.load a b = s.respond .loadOutOfRange) ∨
    (a + b.length ≤ 4096 ∧ s.load a b = ({ s with mem := s.mem.writeList (BitVec.ofNat 12 a) b }).respond .ok) := by
  by_cases h : a + b.length > 4096
  · exact .inl ⟨h, by simp [State.load, h]⟩
  · exact .inr ⟨by omega, by simp [State.load, h]⟩

/-- A sequence run one instruction further. -/
theorem runInstrs_cons {i : Instr} {is : List Instr} (h : exec i s.advance = .next t)
    (hr : t.status.state = .running) : runInstrs (i :: is) s = runInstrs is t := by
  simp [runInstrs, h, hr]

/-- What a sequence's first instruction did, when the sequence completes. -/
theorem runInstrs_cons_some {i : Instr} {is : List Instr} {u : State} (h : runInstrs (i :: is) s = some u) :
    ∃ t, exec i s.advance = .next t ∧ t.status.state = .running ∧ runInstrs is t = some u := by
  simp only [runInstrs] at h
  split at h
  · next t ht =>
    split at h
    · next hr => exact ⟨t, ht, hr, h⟩
    · cases h
  · cases h
  · cases h

end Sys2Proof.Machine
end

