-- ==== Sys2Proof/Laws/Units.lean ====
section
/-! SUPPORT. The units said once: the register_file per kind of write, and what the control FSM drives in each FSM
state. -/

namespace Sys2Proof.Machine

variable {s : State}

/-! ## register_file -/

/-- Nothing enabled, nothing written. -/
theorem registerFile_off (x i : Nibble) (v w : Byte) (f : BitVec 1) :
    registerFile ⟨false, x, v, false, f, false, i, w⟩ s = s.regs := by
  apply Vector.ext; intro j hj; simp [registerFile, RegPorts.next]

/-- Result and flag enabled: ADD's two writes, in its order. -/
theorem registerFile_add (x i : Nibble) (v w : Byte) (f : BitVec 1) :
    registerFile ⟨true, x, v, true, f, false, i, w⟩ s = (s.writeResultAndFlag x v (flagByte f)).regs := by
  apply Vector.ext; intro j hj
  have h := State.reg_writeResultAndFlag s x (BitVec.ofFin ⟨j, hj⟩) v (flagByte f)
  simp only [State.reg, BitVec.toNat_ofFin] at h
  rw [h]; simp [registerFile, RegPorts.next]

/-- The host's write enabled: one register takes the host's value. -/
theorem registerFile_host (x i : Nibble) (v w : Byte) (f : BitVec 1) :
    registerFile ⟨false, x, v, false, f, true, i, w⟩ s = (s.setReg i w).regs := by
  apply Vector.ext; intro j hj
  have h : (BitVec.ofFin ⟨j, hj⟩ = i) ↔ i.toNat = j := by
    rw [← BitVec.toNat_inj]; simp [eq_comm]
  simp [registerFile, RegPorts.next, State.setReg, Vector.getElem_set, h]

/-! ## The host's read ports -/

/-- During a read_reg or a write_reg, `host_rdata` is that register at the start of the step (10_state R24). -/
@[simp] theorem unitReads_hostRdata_readReg (p : OpenPorts) (i : Nibble) :
    (unitReads p (some (.readReg i)) s).hostRdata = s.reg i := rfl

@[simp] theorem unitReads_hostRdata_writeReg (p : OpenPorts) (i : Nibble) (v : Byte) :
    (unitReads p (some (.writeReg i v)) s).hostRdata = s.reg i := rfl

/-- During a read_stack, the stack_controller's `host_rdata` is that entry (42_stack R160). -/
@[simp] theorem unitStack_hostRdata_readStack (p : OpenPorts) (j : Nibble) :
    (unitStack p (some (.readStack j)) s).hostRdata = s.entry j := rfl

/-- `sp_out` is sp, whatever the host issues (42_stack R160). -/
@[simp] theorem unitStack_spOut (p : OpenPorts) (cmd : Option HostCommand) : (unitStack p cmd s).spOut = s.sp := rfl

/-! ## Memory -/

/-- No load enabled, memory as it was. -/
@[simp] theorem memoryNext_off (cmd : Option HostCommand) : memoryNext false cmd s = s.mem := by
  simp [memoryNext]

/-- A load enabled: the host's load. -/
@[simp] theorem memoryNext_load (a : Nat) (b : List Byte) : memoryNext true (some (.load a b)) s = (s.load a b).mem := rfl

/-! ## fetch_unit -/

/-- Out of range, the fetch unit asks for the fault. -/
theorem unitFetch_of_gt (p : OpenPorts) (h : 0x0FFE < s.pc.toNat) : unitFetch p s = ⟨p.instr, true⟩ := by
  simp [unitFetch, fetchUnit, (fetchFault_iff s.pc).mpr h]

/-- In range, the fetch unit gives the word at pc. -/
theorem unitFetch_of_le (p : OpenPorts) (h : s.pc.toNat ≤ 0x0FFE) : unitFetch p s = ⟨s.wordAt s.pc, false⟩ := by
  have hf : fetchFault s.pc = false := by rw [← Bool.not_eq_true, fetchFault_iff]; omega
  simp [unitFetch, fetchUnit, hf, State.wordAt, wordOfBytes]

/-! ## The ports an instruction reads -/

/-- In range, the register_file's read ports carry the registers x and y of the fetched word (10_state R24). -/
theorem unitReads_of_le (p : OpenPorts) (cmd : Option HostCommand) (h : s.pc.toNat ≤ 0x0FFE) :
    unitReads p cmd s = ⟨s.reg (fields (s.wordAt s.pc)).x, s.reg (fields (s.wordAt s.pc)).y,
      s.reg (hostIdxPort p.hostIdx cmd)⟩ := by
  simp [unitReads, registerReads, unitFetch_of_le p h]

/-- With a top entry, the stack_controller's `pop_data` is that entry (42_stack R160). -/
theorem unitStack_popData_of_live (p : OpenPorts) (cmd : Option HostCommand) (h : 0 < s.sp.toNat) (h' : s.sp.toNat ≤ 16) :
    (unitStack p cmd s).popData = s.popData := by
  have he : s.empty = false := by rw [← Bool.not_eq_true, State.empty_iff]; omega
  have hu : s.spUnreachable = false := by rw [← Bool.not_eq_true, State.spUnreachable_iff]; omega
  simp [unitStack, stackOutputs, popDataPort, he, hu]

/-! ## control_fsm -/

/-- RUNNING and out of range: the row "fetch fault" (40_cycle R106). -/
theorem unitControl_of_gt (p : OpenPorts) (cmd : Option HostCommand) (hr : s.status.state = .running)
    (h : 0x0FFE < s.pc.toNat) :
    unitControl p cmd s = { pcSel := .hold, next := .faulted, raised := .fetchOutOfRange } := by
  simp [unitControl, controlFsm, hr, controlRunning, unitFetch_of_gt p h]

/-- RUNNING and in range: the row of the fetched word's op tag (40_cycle R106). -/
theorem unitControl_of_le (p : OpenPorts) (cmd : Option HostCommand) (hr : s.status.state = .running)
    (h : s.pc.toNat ≤ 0x0FFE) : unitControl p cmd s = controlOfOp (opTag (s.wordAt s.pc)) s.full s.empty := by
  simp [unitControl, controlFsm, hr, controlRunning, unitFetch_of_le p h, unitStack, stackOutputs]

/-- Not RUNNING: the row of the host's command (40_cycle R101, R105). -/
theorem unitControl_stopped (p : OpenPorts) (cmd : Option HostCommand) (hr : s.status.state ≠ .running) :
    unitControl p cmd s = controlStopped s.status.state cmd := by
  cases hs : s.status.state with
  | running => exact absurd hs hr
  | idle => simp [unitControl, controlFsm, hs]
  | halted => simp [unitControl, controlFsm, hs]
  | faulted => simp [unitControl, controlFsm, hs]

/-- Not RUNNING, the select is HOST on a host pc write that has a move (40_cycle R105). -/
theorem controlStopped_pcSel_writePc {f : FsmState} (v : Word) (h : f ≠ .faulted) :
    (controlStopped f (some (.writePc v))).pcSel = .host := by
  simp [controlStopped, h]

/-- Not RUNNING, the select is HOLD with any other command, a refused host pc write among them, and with none. -/
theorem controlStopped_pcSel_hold {f : FsmState} {cmd : Option HostCommand}
    (h : ∀ v, cmd = some (.writePc v) → f = .faulted) : (controlStopped f cmd).pcSel = .hold := by
  rcases cmd with - | (-|-|-|v|-|-|-|-|-|-|-) <;> simp [controlStopped]
  exact h v rfl

end Sys2Proof.Machine
end

