-- ==== Sys2Proof/Tests/Slice0.lean ====
section
/-! SUPPORT. The model's own tests: the well-formedness check, words written out from spec/30_encoding.md and
spec/opcode_table.json, single steps from spec/95_test_vectors.md, and for each statement with hypotheses concrete states
that meet them, clause by clause. -/

namespace Sys2Proof.Tests
open Sys2Proof Sys2Proof.Machine

/-! ## States the tests start from -/

/-- A RUNNING machine at a pc with a stack pointer; every live entry is 0x0002, as P3 of 95_test_vectors.md leaves them. -/
def runningAt (pc : Word) (sp : BitVec 5) : State :=
  { State.reset with
    pc := pc
    sp := sp
    stack := Vector.replicate 16 0x0002
    status := ⟨.running, .none, 0⟩ }

/-- The word `w` stored at the pc, high byte first. -/
def withWord (s : State) (w : Word) : State :=
  { s with mem := (s.mem.write (fetchAddrHi s.pc) (highByte w)).write (fetchAddrLo s.pc) (lowByte w) }

/-- A machine in a stopped state with commands pending. -/
def stoppedWith (f : FsmState) (pending : List HostCommand) : State :=
  { State.reset with status := { State.reset.status with state := f }, host := ⟨pending, []⟩ }

/-- The FAULTED machine that P5 of 95_test_vectors.md ends in, with commands pending. -/
def faultedWith (pending : List HostCommand) : State :=
  { State.reset with pc := 0x0002, status := ⟨.faulted, .stackUnderflow, 0x00EE⟩, host := ⟨pending, []⟩ }

/-- A RUNNING machine meets the invariant when its sp is legal. -/
theorem runningAt_inv (pc : Word) (sp : BitVec 5) (h : sp.toNat ≤ 16) : (runningAt pc sp).Inv where
  mem_wf := rfl
  sp_le := h
  clean := fun _ => ⟨rfl, rfl⟩
  recorded := fun h => FsmState.noConfusion h
  live := fun j _ => by
    have : (runningAt pc sp).entry j = 0x0002 := by simp [runningAt, State.entry]
    rw [this]; decide

/-! ## WellFormed refuses an ill-formed term (opcode_table.json, row UNIMPLEMENTED) -/

theorem test_wellFormed_refuses_halt_word : (Instr.unimplemented 0x0000).wellFormed = false := by decide
theorem test_wellFormed_refuses_return_word : (Instr.unimplemented 0x00EE).wellFormed = false := by decide
theorem test_wellFormed_refuses_call_word : (Instr.unimplemented 0x2ABC).wellFormed = false := by decide
theorem test_wellFormed_refuses_add_word : (Instr.unimplemented 0x8014).wellFormed = false := by decide
theorem test_wellFormed_takes_unimplemented_word : (Instr.unimplemented 0x00EF).wellFormed = true := by decide

/-! ## Decoding words written out bit by bit from opcode_table.json's encodings -/

theorem test_decode_halt : decode 0b0000000000000000 = .halt := by decide
theorem test_decode_return : decode 0b0000000011101110 = .ret := by decide
/-- `0010nnnnnnnnnnnn` with nnn = 1010 1011 1100. -/
theorem test_decode_call : decode 0b0010101010111100 = .call 0xABC := by decide
/-- `1000xxxxyyyy0100` with x = 1111, y = 1110 (95_test_vectors.md section 2.1, 0x8FE4). -/
theorem test_decode_add : decode 0b1000111111100100 = .add 15 14 := by decide
/-- 95_test_vectors.md section 2.1, 0x8015: family 8 with d = 5. -/
theorem test_decode_unimplemented : decode 0b1000000000010101 = .unimplemented 0x8015 := by decide
/-- 95_test_vectors.md section 2.2: bytes 80 14 are the word 0x8014, not 0x1480. -/
theorem test_decodeBytes_big_endian : decodeBytes [0x80, 0x14, 0xFF] = .ok (.add 0 1, [0xFF]) := by decide
theorem test_decodeBytes_rejects_one_byte : decodeBytes [0x80] = .error .truncated := by decide
theorem test_decodeTableWord_call : decodeTableWord 16 0x2ABC = some (.call 0xABC) := by decide
/-- 30_encoding R80. -/
theorem test_asm_add : (Instr.add 0 15).asm = "ADD V0, VF" := by decide
theorem test_asm_call : (Instr.call 0x1A0).asm = "CALL 0x1A0" := by decide

/-! ## Single steps, expected results from 95_test_vectors.md -/

/-- Section 2.3: 250 + 10. -/
theorem test_add_wraps : ∃ t, exec (.add 0 1) (((runningAt 2 0).setReg 0 250).setReg 1 10) = .next t ∧
    t.reg 0 = 4 ∧ t.reg 15 = 1 := ⟨_, rfl, by decide⟩
/-- Section 2.3: 0x8F14 with r15 = 200, r1 = 100: the flag wins. -/
theorem test_add_flag_wins : ∃ t, exec (.add 15 1) (((runningAt 2 0).setReg 15 200).setReg 1 100) = .next t ∧
    t.reg 15 = 1 := ⟨_, rfl, by decide⟩
/-- Section 2.4: 0x2300 at 0x200 with sp = 15. -/
theorem test_call_last_entry : ∃ t, step (withWord (runningAt 0x200 15) 0x2300) = .next t ∧
    t.entry 15 = 0x0202 ∧ t.sp = 16 ∧ t.pc = 0x0300 := ⟨_, rfl, by decide⟩
/-- Section 2.4: 0x2300 at 0x200 with sp = 16. -/
theorem test_call_overflows : ∃ t, step (withWord (runningAt 0x200 16) 0x2300) = .next t ∧
    t.status = ⟨.faulted, .stackOverflow, 0x2300⟩ ∧ t.pc = 0x0202 ∧ t.sp = 16 := ⟨_, rfl, by decide⟩
/-- Section 2.5: the top entry of a full stack. -/
theorem test_return_from_full_stack :
    ∃ t, step (withWord ((runningAt 0x104 16).setEntry 15 0x0202) 0x00EE) = .next t ∧ t.sp = 15 ∧ t.pc = 0x0202 :=
  ⟨_, rfl, by decide⟩
/-- Section 2.5: RETURN at reset. -/
theorem test_return_underflows : ∃ t, step (withWord (runningAt 0 0) 0x00EE) = .next t ∧
    t.status = ⟨.faulted, .stackUnderflow, 0x00EE⟩ ∧ t.pc = 0x0002 := ⟨_, rfl, by decide⟩
/-- Section 2.2: HALT at 0x0FFE leaves pc = 0x1000. -/
theorem test_halt_at_end : ∃ t, step (runningAt 0x0FFE 0) = .next t ∧ t.status.state = .halted ∧ t.pc = 0x1000 :=
  ⟨_, rfl, by decide⟩
/-- Section 2.7: 0x801E. -/
theorem test_unimplemented : ∃ t, step (withWord (runningAt 0 0) 0x801E) = .next t ∧
    t.status = ⟨.faulted, .unimplementedOpcode, 0x801E⟩ ∧ t.pc = 0x0002 := ⟨_, rfl, by decide⟩
/-- Section 2.2: pc = 0x0001 with bytes 12 80 14 00 from address 0: an odd pc fetches 0x8014. -/
theorem test_fetch_odd_pc :
    State.fetch { runningAt 0x0001 0 with mem := [(0, 0x12), (1, 0x80), (2, 0x14)] } = some 0x8014 := by decide
/-- Section 2.8: `read_status()` after program P3 is 0x200007. -/
theorem test_status_word : Status.word ⟨.faulted, .stackOverflow, 0x2000⟩ = 0x200007 := by decide
/-- Section 2.8: a load that would pass the end writes nothing. -/
theorem test_load_past_end : ∃ t, step (stoppedWith .idle [.load 0x0FFF [1, 2]]) = .next t ∧
    t.mem = [] ∧ t.host.responses = [.loadOutOfRange] := ⟨_, rfl, by decide⟩
/-- 40_cycle R105, row 4: a host pc write drives HOST, and the mux gives the host's value. -/
theorem test_pcMux_host : (unitControl ⟨0, 0, 0, 0, 0, 0⟩ (some (.writePc 0x1234)) (stoppedWith .halted [])).pcSel.code = 4 ∧
    (unitStep ⟨0, 0, 0, 0, 0, 0⟩ (some (.writePc 0x1234)) (stoppedWith .halted [])).pc = 0x1234 := by decide
/-- 40_cycle R105, row 0: no host pc write drives HOLD, whatever stands at the host's port. -/
theorem test_pcMux_hold : (unitControl ⟨0, 0, 0xFFFF, 0, 0, 0⟩ none (stoppedWith .halted [])).pcSel.code = 0 ∧
    (unitStep ⟨0, 0, 0xFFFF, 0, 0, 0⟩ none (stoppedWith .halted [])).pc = (stoppedWith .halted []).pc := by decide
/-- 10_state R24 and 70_reset_and_hazards R247: read_reg is answered from `host_rdata`, at `host_idx` = the command's index. -/
theorem test_hostRdata : unitRead ⟨0, 0, 0, 3, 0, 0⟩ (some (.readReg 15)) ((stoppedWith .halted []).setReg 15 0xAB) =
    some (.regValue 0xAB) := by decide
/-- A word placed by the pipeline is the first instruction after reset (log entry 5); 95_test_vectors.md section 2.4. -/
theorem test_withFetchWord : ∃ t, step (State.reset.withFetchWord 16 0x2100) = .next t ∧
    t.pc = 0x0100 ∧ t.sp = 1 ∧ t.entry 0 = 0x0002 := ⟨_, rfl, by decide⟩

/-! ## Witnesses: states that meet the hypotheses of the statements, clause by clause -/

theorem witness_StepKeepsInvariant : (runningAt 0x0FFE 16).Inv ∧ ∃ t, step (runningAt 0x0FFE 16) = .next t :=
  ⟨runningAt_inv _ _ (by decide), _, rfl⟩
theorem witness_InvariantStateAlwaysSteps : (withWord (runningAt 0x0000 16) 0x2000).Inv :=
  { runningAt_inv 0 16 (by decide) with mem_wf := by decide }
theorem witness_OpcodeTable : ∀ r ∈ opcodeRows, r.covers r.pattern = true := by decide
theorem witness_EncodeThenDecode : (Instr.unimplemented 0x00E0).wellFormed = true := by decide
theorem witness_FetchReads : (runningAt 0x0FFE 0).pc.toNat ≤ 0x0FFE ∧ (runningAt 0x0FFD 0).pc.toNat ≤ 0x0FFE := by decide

theorem witness_StepRuns_outOfRange :
    (runningAt 0x0FFF 0).status.state = .running ∧ 0x0FFE < (runningAt 0x0FFF 0).pc.toNat := by decide
/-- One word of each op tag, at the last fetchable pc. -/
theorem witness_StepRuns_inRange :
    ∀ p ∈ [((0x0000 : Word), OpTag.halt, Instr.halt), (0x00EE, .ret, .ret), (0x2FFF, .call, .call 0xFFF),
        (0x8FF4, .add, .add 15 15), (0xFFFF, .unimpl, .unimplemented 0xFFFF)],
      let s := withWord (runningAt 0x0FFE 0) p.1
      s.status.state = .running ∧ s.pc.toNat ≤ 0x0FFE ∧ opTag p.1 = p.2.1 ∧ decode p.1 = p.2.2 ∧
      p.1.toNat = 256 * (s.mem.read (BitVec.ofNat 12 s.pc.toNat)).toNat +
        (s.mem.read (BitVec.ofNat 12 (s.pc.toNat + 1))).toNat := by decide
theorem witness_StepRuns_refused : exec (.call 0x000) { runningAt 0 17 with pc := (runningAt 0 17).pc + 2 } =
    .refused .stackPointerUnreachable := rfl
theorem witness_EndOfRun : (runningAt 0 0).status.state = .running ∧ (stoppedWith .halted []).status.state = .halted ∧
    (faultedWith []).status.state = .faulted := by decide
theorem witness_PcAdvance : (runningAt 0x0FFE 0).pc.toNat ≤ 0x0FFE ∧ (runningAt 0x0FFF 0).status.state = .running ∧
    0x0FFF ≤ (runningAt 0x0FFF 0).pc.toNat := by decide

/-- The words and stack pointers of PcAfterEachStep, FourFaultsInTheirOrder and ControlFsmTransitions: each handler, and the
stack at both of its ends. -/
theorem witness_running_clauses :
    ∀ p ∈ [((0x0000 : Word), (0 : BitVec 5), OpTag.halt), (0x8014, 16, .add), (0x00E0, 0, .unimpl), (0x2000, 16, .call),
        (0x2000, 15, .call), (0x2000, 0, .call), (0x00EE, 0, .ret), (0x00EE, 1, .ret), (0x00EE, 16, .ret)],
      let s := withWord (runningAt 0x0FFE p.2.1) p.1
      s.status.state = .running ∧ s.sp.toNat ≤ 16 ∧ s.pc.toNat ≤ 0x0FFE ∧ s.wordAt s.pc = p.1 ∧
      opTag (s.wordAt s.pc) = p.2.2 ∧ s.sp = p.2.1 := by decide
/-- A write_pc that has a move, one that FAULTED refuses, another command, and none pending. -/
theorem witness_PcAfterEachStep_stopped :
    (stoppedWith .idle []).status.state ≠ .faulted ∧
    (HostCommand.writePc 0xFFFF ≠ .reset ∧ (faultedWith []).status.state = .faulted) ∧
    (stoppedWith .halted []).status.state ≠ .running ∧ HostCommand.run ≠ .reset ∧
    (stoppedWith .idle []).host.pending = [] := by decide

theorem witness_FetchOutOfRange : (runningAt 0xFFFF 0).status.state = .running ∧ 0x0FFE < (runningAt 0xFFFF 0).pc.toNat := by
  decide
theorem witness_AddWrites : (0 : Nibble) ≠ 15 ∧ (14 : Nibble) ≠ 0 ∧ (14 : Nibble) ≠ 15 := by decide
theorem witness_FlagRegister : (∃ t, exec .halt (runningAt 0 0) = .next t) ∧ (stoppedWith .idle []).status.state = .idle ∧
    (stoppedWith .halted []).status.state = .halted := ⟨⟨_, rfl⟩, by decide⟩
theorem witness_Call : (runningAt 2 15).sp.toNat < 16 ∧ (runningAt 2 0).sp.toNat < 16 ∧ (runningAt 2 16).sp.toNat = 16 := by
  decide
theorem witness_Return : (0 < (runningAt 2 1).sp.toNat ∧ (runningAt 2 1).sp.toNat ≤ 16) ∧
    (0 < (runningAt 2 16).sp.toNat ∧ (runningAt 2 16).sp.toNat ≤ 16) ∧ (runningAt 2 0).sp.toNat = 0 := by decide
theorem witness_Return_inv : (runningAt 2 1).Inv ∧ 0 < (runningAt 2 1).sp.toNat :=
  ⟨runningAt_inv _ _ (by decide), by decide⟩
theorem witness_UnreachableStackPointer : 16 < (runningAt 2 17).sp.toNat ∧ 16 < (runningAt 2 31).sp.toNat := by decide
theorem witness_CallThenReturn : (runningAt 0 15).status.state = .running ∧ (runningAt 0 15).sp.toNat < 16 := by decide
theorem witness_SeventeenthNestedCall : (List.replicate 16 (0x000 : Addr)).length = 16 ∧
    (runningAt 0 0).status.state = .running ∧ (runningAt 0 0).sp.toNat = 0 := by decide
/-- A body with an ADD and a nested CALL, on a stack with room for two entries. -/
theorem witness_BalancedBody : Balanced [.add 0 1, .call 0x200, .ret] ∧
    ∃ t, runInstrs (.call 0x100 :: ([.add 0 1, .call 0x200, .ret] ++ [.ret])) (runningAt 0 14) = some t :=
  ⟨.add 0 1 _ (.nest 0x200 [] [] .nil .nil), _, rfl⟩

theorem witness_HaltEndsTheRun : (runningAt 0x0FFE 0).status.state = .running ∧ (runningAt 0x0FFE 0).pc.toNat ≤ 0x0FFE ∧
    (runningAt 0x0FFE 0).mem.read (BitVec.ofNat 12 0x0FFE) = 0x00 ∧
    (runningAt 0x0FFE 0).mem.read (BitVec.ofNat 12 0x0FFF) = 0x00 := by decide
theorem witness_RunAfterHalt :
    let s : State := { runningAt 0x0FFE 0 with host := ⟨[.run], []⟩ }
    s.status.state = .running ∧ s.pc.toNat = 0x0FFE ∧ s.wordAt s.pc = 0x0000 ∧ s.host.pending = [.run] := by decide
theorem witness_Unimplemented : opTag 0x00EF = .unimpl := by decide

/-- Each instruction answers a next state, CALL and RETURN away from their faults. -/
theorem witness_Frame : (∃ t, exec .halt (runningAt 2 0) = .next t) ∧ (∃ t, exec (.add 15 15) (runningAt 2 0) = .next t) ∧
    (∃ t, exec (.call 0x000) (runningAt 2 15) = .next t) ∧ (∃ t, exec (.call 0x000) (runningAt 2 16) = .next t) ∧
    (∃ t, exec .ret (runningAt 2 1) = .next t) ∧ (∃ t, exec .ret (runningAt 2 0) = .next t) ∧
    (∃ t, exec (.unimplemented 0x0001) (runningAt 2 0) = .next t) :=
  ⟨⟨_, rfl⟩, ⟨_, rfl⟩, ⟨_, rfl⟩, ⟨_, rfl⟩, ⟨_, rfl⟩, ⟨_, rfl⟩, ⟨_, rfl⟩⟩

theorem witness_FaultLeaves_overflow : ∃ t, step (withWord (runningAt 0 16) 0x2000) = .next t ∧
    t.status.state = .faulted ∧ t.status.cause = .stackOverflow := ⟨_, rfl, by decide⟩
theorem witness_FaultLeaves_underflow : ∃ t, step (withWord (runningAt 0 0) 0x00EE) = .next t ∧
    t.status.state = .faulted ∧ t.status.cause = .stackUnderflow := ⟨_, rfl, by decide⟩
theorem witness_FaultLeaves_unimplemented : ∃ t, step (withWord (runningAt 0 0) 0x0001) = .next t ∧
    t.status.state = .faulted ∧ t.status.cause = .unimplementedOpcode := ⟨_, rfl, by decide⟩
theorem witness_FaultLeaves_fetch : ∃ t, step (runningAt 0x0FFF 0) = .next t ∧
    t.status.state = .faulted ∧ t.status.cause = .fetchOutOfRange := ⟨_, rfl, by decide⟩
theorem witness_FaultLeaves_frozen : (faultedWith [.readPc]).status.state = .faulted ∧
    (∃ t, step (faultedWith [.readPc]) = .next t) ∧ ∀ rest, (faultedWith [.readPc]).host.pending ≠ .reset :: rest :=
  ⟨rfl, ⟨_, rfl⟩, fun _ h => by injection h with h; cases h⟩
theorem witness_OnlyResetLeavesFaulted : (faultedWith [.reset]).status.state = .faulted ∧
    (∃ t, step (faultedWith [.reset]) = .next t ∧ t.status.state ≠ .faulted) ∧
    (faultedWith [.run]).host.pending = [.run] := ⟨rfl, ⟨_, rfl, by decide⟩, rfl⟩

theorem witness_ControlFsm_running : (runningAt 0 0).status.state = .running ∧ ∃ t, step (runningAt 0 0) = .next t :=
  ⟨rfl, _, rfl⟩
/-- The four kinds of stopped clause: a reset; a run from IDLE and from HALTED; a run in FAULTED; another command. -/
theorem witness_ControlFsm_stopped : (stoppedWith .halted []).status.state ≠ .running ∧
    (stoppedWith .idle []).status.state = .idle ∧ (stoppedWith .halted []).status.state = .halted ∧
    (faultedWith []).status.state = .faulted ∧ HostCommand.readSp ≠ .reset ∧ HostCommand.readSp ≠ .run := by decide
theorem witness_StoppedStep : (stoppedWith .idle []).host.pending = [] ∧
    (faultedWith [.readSp, .reset]).host.pending = .readSp :: [.reset] := by decide
/-- A step that goes on, one that halts and one that faults. -/
theorem witness_RunEnds : (∃ t, step (withWord (runningAt 0 0) 0x8014) = .next t ∧ t.status.state = .running) ∧
    (∃ t, step (runningAt 0 0) = .next t ∧ t.status.state = .halted) ∧
    (∃ t, step (runningAt 0x1000 0) = .next t ∧ t.status.state = .faulted) :=
  ⟨⟨_, rfl, by decide⟩, ⟨_, rfl, by decide⟩, _, rfl, by decide⟩
theorem witness_CommandsWait : (∀ m < 1, ∀ u, steps m (runningAt 0 0) = some u → u.status.state = .running) ∧
    ∃ t, steps 1 (runningAt 0 0) = some t :=
  ⟨fun m hm u hu => by
    obtain rfl : m = 0 := by omega
    cases hu; rfl, _, rfl⟩

/-- The longest load that fits at 0x0FFE, one byte too many, and the empty load at 4096 (95_test_vectors.md section 2.8). -/
theorem witness_Load : (stoppedWith .idle []).mem.wf = true ∧ (stoppedWith .idle []).status.state = .idle ∧
    (stoppedWith .halted []).status.state = .halted ∧
    0x0FFE + [(1 : Byte), 2].length ≤ 4096 ∧ 4096 < 0x0FFF + [(1 : Byte), 2].length ∧
    0x1000 + ([] : List Byte).length ≤ 4096 := by decide
theorem witness_WriteReg_WritePc : (stoppedWith .idle []).status.state = .idle ∧
    (stoppedWith .halted []).status.state = .halted ∧ 0x0FFE < (0x0FFF : Word).toNat ∧
    HostCommand.writePc 0xFFFF ≠ .reset ∧ HostCommand.writePc 0xFFFF ≠ .run := by decide
/-- Each read command, in FAULTED and with the largest index. -/
theorem witness_Reads : (faultedWith []).status.state ≠ .running ∧
    ((∃ i, HostCommand.readReg 15 = .readReg i) ∧ (∃ a, HostCommand.readMem 0xFFF = .readMem a) ∧
      ∃ j, HostCommand.readStack 15 = .readStack j) := ⟨by decide, ⟨15, rfl⟩, ⟨0xFFF, rfl⟩, 15, rfl⟩
theorem witness_FaultedRefuses : (faultedWith []).status.state = .faulted ∧
    (∃ a b, HostCommand.load 0x1000 [] = .load a b) ∧ (∃ i v, HostCommand.writeReg 15 0 = .writeReg i v) ∧
    ∃ v, HostCommand.writePc 0xFFFF = .writePc v := ⟨rfl, ⟨_, _, rfl⟩, ⟨_, _, rfl⟩, _, rfl⟩
theorem witness_HostReset : (faultedWith []).status.state = .faulted ∧
    (hostCommand .reset (faultedWith [])).status.state ≠ .faulted ∧
    (∃ t, step { runningAt 0 0 with host := ⟨[.reset], []⟩ } = .next t) := ⟨rfl, by decide, _, rfl⟩
theorem witness_Boot : 4095 + [(0x01 : Byte)].length ≤ 4096 ∧ 4096 + ([] : List Byte).length ≤ 4096 := by decide

theorem witness_OnlyTheHostChangesMemory : ∃ t, step (stoppedWith .idle [.load 0 [1]]) = .next t ∧
    t.mem ≠ (stoppedWith .idle [.load 0 [1]]).mem := ⟨_, rfl, by decide⟩
theorem witness_CanonicalMemories : Memory.wf [(0, 0x01), (0xFFF, 0xFF)] = true := by decide
theorem witness_Units : (runningAt 0xFFFF 16).status.state = .running ∧ (runningAt 0xFFFF 16).sp.toNat ≤ 16 ∧
    (stoppedWith .halted [.run]).status.state ≠ .running ∧ (stoppedWith .halted [.run]).sp.toNat ≤ 16 := by decide
theorem witness_HostReads : (faultedWith []).status.state ≠ .running ∧
    unitRead ⟨0, 0, 0, 0, 0, 0⟩ (some (.readStack 15)) (faultedWith []) = some (.stackValue 0) := by decide
theorem witness_HostResetKeepsPort : (faultedWith [.reset, .readPc]).status.state ≠ .running ∧
    (faultedWith [.reset, .readPc]).host.pending = .reset :: [.readPc] := by decide
/-- Two machines that differ in the entry just above a live stack. -/
theorem witness_StaleEntries : (runningAt 0 15).AgreeLive ((runningAt 0 15).setEntry 15 0xABCD) ∧
    (runningAt 0 15).entry 15 ≠ ((runningAt 0 15).setEntry 15 0xABCD).entry 15 ∧
    ∃ t, step (runningAt 0 15) = .next t :=
  ⟨⟨rfl, rfl, rfl, rfl, rfl, rfl, by decide⟩, by decide, _, rfl⟩

end Sys2Proof.Tests
end

section
/-! The state family (spec/10_state.md): the elements at reset, the pc advance, and what writes register 15. -/

namespace Sys2Proof.Machine

/-! ## The elements at reset (10_state R40) -/

@[simp] theorem State.reset_reg (i : Nibble) : State.reset.reg i = 0 := by
  simp [State.reg, State.reset]

@[simp] theorem State.reset_entry (j : Nibble) : State.reset.entry j = 0 := by
  simp [State.entry, State.reset]

/-- Settles O1, element by element; the status word of IDLE, NONE, 0 is all zeros. -/
theorem resetZeroesEveryElement : Obligations.ResetZeroesEveryElement := by
  have hmem : ∀ a : Addr, State.reset.mem.read a = 0x00 := fun _ => rfl
  have hword : State.reset.status.word = 0 := by decide
  exact ⟨State.reset_reg, rfl, State.reset_entry, rfl, hmem, rfl, rfl, rfl, hword⟩

/-! ## The pc advance (10_state R29) -/

/-- A RUNNING machine whose pc is out of range takes the fetch fault and answers the run (60_exceptions R204). -/
theorem step_of_pc_out_of_range {s : State} (hr : s.status.state = .running) (h : 0x0FFE < s.pc.toNat) :
    step s = .next (endRun (s.raise .fetchOutOfRange s.pc)) :=
  step_running_next hr (instructionStep_of_gt h)

/-- Settles O16: the advance of a fetchable pc as a number, and the fetch fault of every other pc. -/
theorem pcAdvanceNeverWraps : Obligations.PcAdvanceNeverWraps := by
  constructor
  · intro s hpc
    have hadv := State.advance_pc_toNat hpc
    exact ⟨hadv, by omega⟩
  · intro s hr hpc
    exact ⟨_, step_of_pc_out_of_range hr hpc, by simp⟩

/-! ## Register 15 (10_state R23) -/

/-- A flag written as a byte is 0 or 1: it is one bit, zero-extended. -/
theorem flagByte_eq_zero_or_one (c : BitVec 1) : flagByte c = 0 ∨ flagByte c = 1 := by
  rcases BitVec.eq_zero_or_eq_one c with rfl | rfl
  · exact .inl rfl
  · exact .inr rfl

/-- After a result and its flag are written, register 15 holds the flag, whatever register took the result. -/
theorem State.flagReg_writeResultAndFlag (s : State) (x : Nibble) (v f : Byte) :
    (s.writeResultAndFlag x v f).reg 15 = f := by
  simp [State.reg_writeResultAndFlag]

/-- No instruction other than ADD writes a register, whether it completes or faults. -/
theorem exec_regs_of_ne_add {i : Instr} {s t : State} (hi : ∀ x y, i ≠ .add x y) (h : exec i s = .next t) :
    t.regs = s.regs := by
  rcases exec_cases h with ⟨-, rfl⟩ | ⟨x, y, rfl, -⟩ | ⟨_, -, -, rfl⟩ | ⟨_, -, -, rfl⟩ | ⟨-, -, -, rfl⟩ |
    ⟨-, -, rfl⟩ | ⟨_, -, rfl⟩
  case inr.inl => exact absurd rfl (hi x y)
  all_goals simp

/-- A write_reg to a machine that FAULTED does not refuse: the register takes the value (70_reset_and_hazards R244). -/
theorem hostCommand_writeReg_of_not_faulted {s : State} (i : Nibble) (v : Byte) (h : s.status.state ≠ .faulted) :
    hostCommand (.writeReg i v) s = (s.setReg i v).respond .ok := by
  simp [hostCommand, State.unlessFaulted, h]

/-- Settles O20: ADD's flag wins on register 15, the other instructions write no register, and the host's write is
unrestricted. -/
theorem flagRegisterAfterEachInstruction : Obligations.FlagRegisterAfterEachInstruction := by
  refine ⟨fun x y s => ?add, fun i s t hi h => ?others, fun v s hs => ?host, State.reset_reg 15⟩
  case add =>
    refine ⟨_, exec_add s x y, ?_⟩
    rw [State.flagReg_writeResultAndFlag]
    exact flagByte_eq_zero_or_one _
  case others => rw [State.reg, State.reg, exec_regs_of_ne_add hi h]
  case host =>
    have hf : s.status.state ≠ .faulted := by rcases hs with hs | hs <;> simp [hs]
    rw [hostCommand_writeReg_of_not_faulted 15 v hf, State.respond_reg, State.reg_setReg, if_pos rfl]

end Sys2Proof.Machine
end

section
/-! The memory family (spec/20_memory.md): the two bytes of a fetch, and the fetch that is out of range. -/

namespace Sys2Proof.Machine

/-! ## The word of a fetch (20_memory R51, R53) -/

/-- Two bytes make a word by shift and or, the first as the high byte (20_memory R51). -/
theorem wordOfBytes_eq_shiftLeft_or (hi lo : Byte) :
    wordOfBytes hi lo = hi.setWidth 16 <<< 8 ||| lo.setWidth 16 := by
  rw [wordOfBytes, BitVec.append_def, BitVec.shiftLeftZeroExtend_eq, BitVec.setWidth'_eq]

/-- Settles O12: the addresses of a fetch are pc and pc + 1 at every pc, so no alignment is asked for. -/
theorem fetchReadsBigEndianAtAnyAlignment : Obligations.FetchReadsBigEndianAtAnyAlignment := by
  intro s hpc
  refine ⟨_, State.fetch_of_le hpc, ?_⟩
  rw [State.wordAt, wordOfBytes_eq_shiftLeft_or, fetchAddrHi_eq, fetchAddrLo_eq]

/-! ## The fetch out of range (20_memory R54, 60_exceptions R204) -/

/-- A fetch gives a word exactly when both of its bytes lie in memory (20_memory R54). -/
theorem State.exists_fetch_eq_some_iff (s : State) : (∃ w, s.fetch = some w) ↔ s.pc.toNat ≤ 0x0FFE := by
  constructor
  · rintro ⟨w, hw⟩
    by_contra hpc
    rw [State.fetch_of_gt (by omega)] at hw
    cases hw
  · exact fun hpc => ⟨_, State.fetch_of_le hpc⟩

/-- A run that a fault ends is answered with the fault's cause and info (70_reset_and_hazards R246). -/
theorem endRun_of_faulted {s : State} (h : s.status.state = .faulted) :
    endRun s = s.respond (.fault s.status.cause s.status.info) := by
  simp [endRun, h]

/-- Settles O15: the range of a fetch, and the fault of a pc beyond it, with the answer to run. -/
theorem fetchOutOfRangeFaults : Obligations.FetchOutOfRangeFaults := by
  refine ⟨State.exists_fetch_eq_some_iff, fun s hr hpc => ?_⟩
  have hf : (s.raise .fetchOutOfRange s.pc).status.state = .faulted := rfl
  refine ⟨_, step_of_pc_out_of_range hr hpc, ?_⟩
  simp [endRun_of_faulted hf]

end Sys2Proof.Machine
end

section
/-! The encoding family (spec/30_encoding.md): the op tag's patterns, the field split, and the encoder's words. -/

namespace Sys2Proof

/-! ## The op tag (30_encoding R75) -/

/-- The words each op tag is for, as 30_encoding R75 lists them; UNIMPL is for the words no other pattern takes. -/
def OpTag.Pattern : OpTag → Word → Prop
  | .halt, w => w.toNat = 0x0000
  | .ret, w => w.toNat = 0x00EE
  | .call, w => w.toNat / 4096 = 0x2
  | .add, w => w.toNat / 4096 = 0x8 ∧ w.toNat % 16 = 0x4
  | .unimpl, w => w.toNat ≠ 0x0000 ∧ w.toNat ≠ 0x00EE ∧ w.toNat / 4096 ≠ 0x2 ∧
      ¬ (w.toNat / 4096 = 0x8 ∧ w.toNat % 16 = 0x4)

/-- Every word meets the pattern of the tag it is given. -/
theorem OpTag.pattern_opTag (w : Word) : (opTag w).Pattern w := by
  rw [opTag_eq_ite]
  split_ifs with hhalt hret hcall hadd
  · exact hhalt
  · exact hret
  · exact hcall
  · exact hadd
  · exact ⟨hhalt, hret, hcall, hadd⟩

/-- A word that meets a tag's pattern is given that tag: the patterns do not overlap, so no earlier test takes it. -/
theorem OpTag.Pattern.opTag_eq {t : OpTag} {w : Word} (h : t.Pattern w) : opTag w = t := by
  rw [opTag_eq_ite]
  cases t with
  | halt => exact if_pos h
  | ret =>
    have hret : w.toNat = 0xEE := h
    have hhalt : w.toNat ≠ 0 := by omega
    rw [if_neg hhalt, if_pos hret]
  | call =>
    have hcall : w.toNat / 4096 = 2 := h
    have hhalt : w.toNat ≠ 0 := by omega
    have hret : w.toNat ≠ 0xEE := by omega
    rw [if_neg hhalt, if_neg hret, if_pos hcall]
  | add =>
    obtain ⟨hc, hd⟩ := h
    have hhalt : w.toNat ≠ 0 := by omega
    have hret : w.toNat ≠ 0xEE := by omega
    have hcall : w.toNat / 4096 ≠ 2 := by omega
    rw [if_neg hhalt, if_neg hret, if_neg hcall, if_pos ⟨hc, hd⟩]
  | unimpl =>
    obtain ⟨hhalt, hret, hcall, hadd⟩ := h
    rw [if_neg hhalt, if_neg hret, if_neg hcall, if_neg hadd]

/-- A word has a tag exactly when it meets the tag's pattern. -/
theorem opTag_eq_iff_pattern (w : Word) (t : OpTag) : opTag w = t ↔ t.Pattern w :=
  ⟨fun h => h ▸ OpTag.pattern_opTag w, OpTag.Pattern.opTag_eq⟩

/-- Settles O7: each tag's clause is its pattern. -/
theorem opTagFollowsThePatterns : Obligations.OpTagFollowsThePatterns := fun w =>
  ⟨opTag_eq_iff_pattern w .halt, opTag_eq_iff_pattern w .ret, opTag_eq_iff_pattern w .call,
    opTag_eq_iff_pattern w .add, opTag_eq_iff_pattern w .unimpl⟩

/-! ## The field split (30_encoding R71, R72) -/

theorem OpTag.code_toNat_le (t : OpTag) : t.code.toNat ≤ 4 := by
  cases t <;> decide

theorem fields_nnn_eq_append (w : Word) : (fields w).nnn = (fields w).x ++ (fields w).y ++ (fields w).d := by
  apply BitVec.eq_of_toNat_eq
  rw [toNat_append_eq, toNat_append_eq, fields_nnn_toNat, fields_x_toNat, fields_y_toNat, fields_d_toNat]
  omega

theorem fields_kk_eq_append (w : Word) : (fields w).kk = (fields w).y ++ (fields w).d := by
  apply BitVec.eq_of_toNat_eq
  rw [toNat_append_eq, fields_kk_toNat, fields_y_toNat, fields_d_toNat]
  omega

/-- Settles O6: the codes one by one, each field as a bit range, and the two overlaps. -/
theorem fieldsSplitTheWord : Obligations.FieldsSplitTheWord := by
  refine ⟨⟨rfl, rfl, rfl, rfl, rfl, fun w => (opTag w).code_toNat_le⟩, fun w => ?_⟩
  exact ⟨fields_c_toNat w, fields_x_toNat w, fields_y_toNat w, fields_d_toNat w, fields_nnn_toNat w,
    fields_kk_toNat w, fields_nnn_eq_append w, fields_kk_eq_append w⟩

/-! ## The encoder's words (30_encoding R81) -/

/-- A concatenation, read at any width, is a shift and an or. -/
theorem setWidth_append_eq_shiftLeft_or {n m : Nat} (k : Nat) (a : BitVec n) (b : BitVec m) :
    (a ++ b).setWidth k = a.setWidth k <<< m ||| b.setWidth k := by
  ext i hi
  simp only [BitVec.getElem_setWidth, BitVec.getLsbD_append, BitVec.getElem_or, BitVec.getElem_shiftLeft]
  by_cases him : i < m
  · simp [him]
  · simp [him, BitVec.getLsbD_of_ge b i (Nat.le_of_not_lt him)]

theorem encode_call_eq_or (a : Addr) : encode (.call a) = 0x2000#16 ||| a.setWidth 16 :=
  calc encode (.call a) = (0x2#4 ++ a).setWidth 16 := (BitVec.setWidth_eq _).symm
    _ = 0x2000#16 ||| a.setWidth 16 := setWidth_append_eq_shiftLeft_or 16 0x2#4 a

theorem encode_add_eq_or (x y : Nibble) :
    encode (.add x y) = 0x8000#16 ||| x.setWidth 16 <<< 8 ||| y.setWidth 16 <<< 4 ||| 0x4#16 :=
  calc encode (.add x y) = (0x8#4 ++ x ++ y ++ 0x4#4).setWidth 16 := (BitVec.setWidth_eq _).symm
    _ = (((0x8#16 <<< 4 ||| x.setWidth 16) <<< 4) ||| y.setWidth 16) <<< 4 ||| 0x4#16 := by
      simp only [setWidth_append_eq_shiftLeft_or]; rfl
    _ = 0x8000#16 ||| x.setWidth 16 <<< 8 ||| y.setWidth 16 <<< 4 ||| 0x4#16 := by
      simp only [BitVec.shiftLeft_or_distrib, ← BitVec.shiftLeft_add]; rfl

theorem highByte_eq_ushiftRight (w : Word) : highByte w = (w >>> 8).setWidth 8 := by
  apply BitVec.eq_of_toNat_eq
  rw [highByte, BitVec.extractLsb'_toNat, BitVec.toNat_setWidth, BitVec.toNat_ushiftRight]

/-- Settles O11: the spellings one by one, then the two bytes of any instruction's word. -/
theorem encodingFromSyntax : Obligations.EncodingFromSyntax :=
  ⟨rfl, rfl, encode_call_eq_or, encode_add_eq_or, fun _ => rfl, fun i =>
    ⟨_, _, rfl, highByte_eq_ushiftRight (encode i), lowByte_toNat (encode i)⟩⟩

end Sys2Proof
end

section
/-! The cycle family (spec/40_cycle.md): the step of a RUNNING machine, HALT, the control FSM's transitions, and the next
pc. -/

namespace Sys2Proof.Machine

open Laws.EncodeOpTag (tag)

/-! ## The fetched word and its handler (40_cycle R102) -/

/-- The word at a pc is made of the bytes at pc and pc + 1 (20_memory R51). -/
theorem State.wordAt_eq (s : State) (pc : Word) : s.wordAt pc =
    wordOfBytes (s.mem.read (BitVec.ofNat 12 pc.toNat)) (s.mem.read (BitVec.ofNat 12 (pc.toNat + 1))) := by
  rw [State.wordAt, fetchAddrHi_eq, fetchAddrLo_eq]

/-- A word's instruction is of the row that the word's op tag names. -/
theorem tag_decode (w : Word) : tag (decode w) = opTag w := by
  cases h : opTag w with
  | halt => rw [decode_of_opTag_halt h]; rfl
  | ret => rw [decode_of_opTag_ret h]; rfl
  | call => rw [decode_of_opTag_call h]; rfl
  | add => rw [decode_of_opTag_add h]; rfl
  | unimpl => rw [decode_of_opTag_unimpl h]; rfl

variable {s t : State}

/-- In range, a RUNNING machine's step is the handler's on the advanced state, and the answer to run if it ends. -/
theorem step_of_exec_next (hr : s.status.state = .running) (hpc : s.pc.toNat ≤ 0x0FFE)
    (h : exec (decode (s.wordAt s.pc)) s.advance = .next t) : step s = .next (endRun t) :=
  step_running_next hr ((instructionStep_of_le hpc).trans h)

theorem step_of_exec_refused {r : Refusal} (hr : s.status.state = .running) (hpc : s.pc.toNat ≤ 0x0FFE)
    (h : exec (decode (s.wordAt s.pc)) s.advance = .refused r) : step s = .refused r :=
  step_running_refused hr ((instructionStep_of_le hpc).trans h)

/-- Settles O13: `w` is the word at pc, and `i` what it decodes to, so the step is `i`'s. -/
theorem stepRunsTheFetchedInstruction : Obligations.StepRunsTheFetchedInstruction := by
  intro s hr
  refine ⟨step_of_pc_out_of_range hr, fun hpc i w hw hi => ?_⟩
  have hdec : decode w = i := by
    rcases hi with ⟨h, rfl⟩ | ⟨h, rfl⟩ | ⟨h, rfl⟩ | ⟨h, rfl⟩ | ⟨h, rfl⟩
    · exact decode_of_opTag_halt h
    · exact decode_of_opTag_ret h
    · exact decode_of_opTag_call h
    · exact decode_of_opTag_add h
    · exact decode_of_opTag_unimpl h
  have hword : s.wordAt s.pc = w := by
    apply BitVec.eq_of_toNat_eq
    rw [State.wordAt_eq, wordOfBytes_toNat, hw]
  have hexec : exec (decode (s.wordAt s.pc)) s.advance = exec i { s with pc := s.pc + 2 } := by
    rw [hword, hdec]; rfl
  exact ⟨hdec, fun t ht => step_of_exec_next hr hpc (hexec.trans ht),
    fun r ht => step_of_exec_refused hr hpc (hexec.trans ht)⟩

/-! ## HALT (40_cycle R108) -/

theorem opTag_eq_halt_iff (w : Word) : opTag w = .halt ↔ w = 0x0000 := by
  rw [opTag_eq_iff_pattern, ← BitVec.toNat_inj]; rfl

theorem decode_eq_halt_iff (w : Word) : decode w = .halt ↔ w = 0x0000 := by
  rw [← opTag_eq_halt_iff]
  exact ⟨fun h => by rw [← tag_decode, h]; rfl, decode_of_opTag_halt⟩

/-- A run that HALT ends is answered Halted (70_reset_and_hazards R246). -/
theorem endRun_of_halted (h : s.status.state = .halted) : endRun s = s.respond .halted := by
  simp [endRun, h]

/-- Settles O27: the word of two zero bytes is the one HALT word, and HALT's step enters HALTED and answers the run. -/
theorem haltEndsTheRunNormally : Obligations.HaltEndsTheRunNormally := by
  refine ⟨decode_eq_halt_iff, fun s => ⟨_, exec_halt s, by simp⟩, fun s hr hpc hhi hlo => ?_⟩
  have hdec : decode (s.wordAt s.pc) = .halt := by
    rw [State.wordAt_eq, hhi, hlo]; rfl
  have hend : endRun (s.advance.enter .halted) = (s.advance.enter .halted).respond .halted := endRun_of_halted rfl
  have hexec : exec (decode (s.wordAt s.pc)) s.advance = .next (s.advance.enter .halted) := by
    rw [hdec, exec_halt]
  refine ⟨_, step_of_exec_next hr hpc hexec, ?_⟩
  simp [hend]

/-! ## The transitions out of RUNNING (40_cycle R101, R111) -/

/-- The condition on which a RUNNING machine's step halts: the word fetched is HALT's (40_cycle R101). -/
def State.HaltsNext (s : State) : Prop :=
  s.pc.toNat ≤ 0x0FFE ∧ s.wordAt s.pc = 0x0000

/-- The op tags whose handler raises a fault, on a machine with this stack pointer (60_exceptions R201–R203). -/
def State.HandlerFaults (s : State) (op : OpTag) : Prop :=
  op = .unimpl ∨ (op = .call ∧ s.sp.toNat = 16) ∨ (op = .ret ∧ s.sp.toNat = 0)

/-- The conditions on which a RUNNING machine's step faults (40_cycle R101, 60_exceptions R200). -/
def State.FaultsNext (s : State) : Prop :=
  0x0FFE < s.pc.toNat ∨ s.HandlerFaults (opTag (s.wordAt s.pc))

/-- A handler keeps the status register, or enters HALTED, or raises a fault, each on its own condition. -/
theorem exec_decode_status {w : Word} (h : exec (decode w) s = .next t) :
    (opTag w ≠ .halt ∧ ¬ s.HandlerFaults (opTag w) ∧ t.status = s.status) ∨
    (opTag w = .halt ∧ t.status.state = .halted) ∨
    (s.HandlerFaults (opTag w) ∧ t.status.state = .faulted ∧ t.status.cause ≠ .none) := by
  rw [← tag_decode]
  rcases exec_cases h with ⟨hi, rfl⟩ | ⟨x, y, hi, rfl⟩ | ⟨nnn, hi, hsp, rfl⟩ | ⟨nnn, hi, hsp, rfl⟩ |
    ⟨hi, hsp, -, rfl⟩ | ⟨hi, hsp, rfl⟩ | ⟨_, hi, rfl⟩
  · exact .inr (.inl ⟨by rw [hi]; rfl, rfl⟩)
  · exact .inl (by simp [hi, tag, State.HandlerFaults])
  · exact .inl (by simp [hi, tag, State.HandlerFaults, Nat.ne_of_lt hsp])
  · exact .inr (.inr (by simp [hi, tag, State.HandlerFaults, hsp]))
  · exact .inl (by simp [hi, tag, State.HandlerFaults, Nat.ne_of_gt hsp])
  · exact .inr (.inr (by simp [hi, tag, State.HandlerFaults, hsp]))
  · exact .inr (.inr (by simp [hi, tag, State.HandlerFaults]))

theorem State.not_handlerFaults_halt (s : State) : ¬ s.HandlerFaults .halt := by
  simp [State.HandlerFaults]

/-- An instruction step keeps the status register, or enters HALTED, or raises a fault, each on its own condition. -/
theorem instructionStep_status (h : instructionStep s = .next t) :
    (¬ s.HaltsNext ∧ ¬ s.FaultsNext ∧ t.status = s.status) ∨
    (s.HaltsNext ∧ ¬ s.FaultsNext ∧ t.status.state = .halted) ∨
    (¬ s.HaltsNext ∧ s.FaultsNext ∧ t.status.state = .faulted ∧ t.status.cause ≠ .none) := by
  simp only [State.HaltsNext, State.FaultsNext, ← opTag_eq_halt_iff]
  rcases instructionStep_cases h with ⟨hpc, rfl⟩ | ⟨hpc, hexec⟩
  · exact .inr (.inr ⟨fun hle => Nat.not_lt.mpr hle.1 hpc, .inl hpc, rfl, Cause.noConfusion⟩)
  · have hgt : ¬ 0x0FFE < s.pc.toNat := Nat.not_lt.mpr hpc
    rcases exec_decode_status hexec with ⟨hne, hok, hst⟩ | ⟨heq, hst⟩ | ⟨hf, hst, hc⟩
    · exact .inl ⟨fun hh => hne hh.2, not_or.mpr ⟨hgt, hok⟩, hst⟩
    · refine .inr (.inl ⟨⟨hpc, heq⟩, not_or.mpr ⟨hgt, ?_⟩, hst⟩)
      rw [heq]; exact s.not_handlerFaults_halt
    · refine .inr (.inr ⟨fun hh => s.not_handlerFaults_halt ?_, .inr hf, hst, hc⟩)
      rwa [← hh.2]

/-- No instruction step touches the host's port. -/
theorem instructionStep_host (h : instructionStep s = .next t) : t.host = s.host := by
  rcases instructionStep_cases h with ⟨-, rfl⟩ | ⟨-, hexec⟩
  · rfl
  · rcases exec_cases hexec with ⟨-, rfl⟩ | ⟨_, _, -, rfl⟩ | ⟨_, -, -, rfl⟩ | ⟨_, -, -, rfl⟩ | ⟨-, -, -, rfl⟩ |
      ⟨-, -, rfl⟩ | ⟨_, -, rfl⟩ <;> rfl

theorem endRun_of_running (h : s.status.state = .running) : endRun s = s := by
  simp [endRun, h]

/-- A RUNNING machine's step goes on and answers nothing, or halts, or faults, each with its answer to run. -/
theorem step_running_outcome (hr : s.status.state = .running) (h : step s = .next t) :
    (¬ s.HaltsNext ∧ ¬ s.FaultsNext ∧ t.status.state = .running ∧ t.host = s.host) ∨
    (s.HaltsNext ∧ ¬ s.FaultsNext ∧ t.status.state = .halted ∧
      t.host = ⟨s.host.pending, s.host.responses ++ [.halted]⟩) ∨
    (¬ s.HaltsNext ∧ s.FaultsNext ∧ t.status.state = .faulted ∧ t.status.cause ≠ .none ∧
      t.host = ⟨s.host.pending, s.host.responses ++ [.fault t.status.cause t.status.info]⟩) := by
  obtain ⟨u, hu, rfl⟩ := step_running_cases hr h
  have hhost := instructionStep_host hu
  rcases instructionStep_status hu with ⟨hH, hF, hst⟩ | ⟨hH, hF, hst⟩ | ⟨hH, hF, hst, hc⟩
  · have hrun : u.status.state = .running := by rw [hst, hr]
    exact .inl ⟨hH, hF, by rw [endRun_status, hrun], by rw [endRun_of_running hrun, hhost]⟩
  · refine .inr (.inl ⟨hH, hF, by rw [endRun_status, hst], ?_⟩)
    rw [endRun_of_halted hst, State.respond_host, hhost]
  · refine .inr (.inr ⟨hH, hF, by rw [endRun_status, hst], by rwa [endRun_status], ?_⟩)
    rw [endRun_of_faulted hst, State.respond_host, hhost, State.respond_status]

/-- Settles O37: the three outcomes of a RUNNING step, and that only HALTED completes normally. -/
theorem runEndsOnlyHaltedOrFaulted : Obligations.RunEndsOnlyHaltedOrFaulted := by
  intro s t hr h
  rcases step_running_outcome hr h with ⟨-, -, hst, hh⟩ | ⟨-, -, hst, hh⟩ | ⟨-, -, hst, hc, hh⟩
  · exact .inl ⟨hst, by rw [hh]⟩
  · exact .inr (.inl ⟨hst, hst, by rw [hh]⟩)
  · exact .inr (.inr ⟨hst, by simp [State.completedNormally, hst], hc, by rw [hh]⟩)

/-- The transitions out of RUNNING, each exactly on its condition (40_cycle R101). -/
theorem step_running_transitions (hr : s.status.state = .running) (h : step s = .next t) :
    (t.status.state = .halted ↔ s.HaltsNext) ∧ (t.status.state = .faulted ↔ s.FaultsNext) ∧
    t.status.state ≠ .idle ∧ t.host.pending = s.host.pending ∧
    (t.status.state = .running → t.host = s.host) ∧
    (t.status.state = .halted → t.host.responses = s.host.responses ++ [.halted]) ∧
    (t.status.state = .faulted → t.status.cause ≠ .none ∧
      t.host.responses = s.host.responses ++ [.fault t.status.cause t.status.info]) := by
  rcases step_running_outcome hr h with ⟨hH, hF, hst, hh⟩ | ⟨hH, hF, hst, hh⟩ | ⟨hH, hF, hst, hc, hh⟩
  · simp [hst, hH, hF, hh]
  · simp [hst, hH, hF, hh]
  · simp [hst, hH, hF, hc, hh]

/-! ## The transitions by the host's commands (40_cycle R101) -/

/-- Host reset gives every element its reset value (70_reset_and_hazards R240). -/
theorem reset_sameCore_hostCommand_reset (s : State) : State.reset.SameCore (hostCommand .reset s) :=
  ⟨rfl, rfl, rfl, rfl, rfl, rfl⟩

theorem State.unlessFaulted_of_ne (u : State) (h : s.status.state ≠ .faulted) : s.unlessFaulted u = u := by
  rw [State.unlessFaulted, if_neg h]

theorem State.unlessFaulted_of_faulted (u : State) (h : s.status.state = .faulted) :
    s.unlessFaulted u = s.respond .refused := by
  rw [State.unlessFaulted, if_pos h]

/-- A load writes neither the status register nor the pc (70_reset_and_hazards R243). -/
@[simp] theorem load_status (s : State) (a : Nat) (b : List Byte) : (s.load a b).status = s.status := by
  rcases load_cases s a b with ⟨-, h⟩ | ⟨-, h⟩ <;> rw [h] <;> rfl

@[simp] theorem load_pc (s : State) (a : Nat) (b : List Byte) : (s.load a b).pc = s.pc := by
  rcases load_cases s a b with ⟨-, h⟩ | ⟨-, h⟩ <;> rw [h] <;> rfl

/-- Only reset and run write the status register (40_cycle R101). -/
theorem hostCommand_status {c : HostCommand} (hreset : c ≠ .reset) (hrun : c ≠ .run) :
    (hostCommand c s).status = s.status := by
  rcases hostCommand_cases c s with ⟨hc, -⟩ | ⟨-, h⟩ | ⟨-, hc, -⟩ | ⟨-, a, b, -, h⟩ | ⟨-, i, v, -, h⟩ |
    ⟨-, v, -, h⟩ | ⟨-, r, h⟩
  case inl => exact absurd hc hreset
  case inr.inr.inl => exact absurd hc hrun
  all_goals rw [h]; simp

/-- Settles O35: out of RUNNING by the step, out of the other states by reset and run alone. -/
theorem controlFsmTransitions : Obligations.ControlFsmTransitions := by
  refine ⟨fun s t hr h => step_running_transitions hr h, fun s _ => reset_sameCore_hostCommand_reset s,
    fun s hs => ?run, fun s hs => ?refused, fun s c _ hreset hrun => hostCommand_status hreset hrun⟩
  case run =>
    have hf : s.status.state ≠ .faulted := by rcases hs with hs | hs <;> simp [hs]
    exact State.unlessFaulted_of_ne (s.enter .running) hf
  case refused => exact State.unlessFaulted_of_faulted (s.enter .running) hs

/-! ## The next pc and its select (40_cycle R105) -/

/-- The op tags whose row drives SEQ: HALT, ADD, UNIMPL, and CALL and RETURN when they fault (40_cycle R105). -/
def State.DrivesSeq (s : State) (op : OpTag) : Prop :=
  op = .halt ∨ op = .add ∨ s.HandlerFaults op

theorem controlOfOp_pcSel_of_drivesSeq {op : OpTag} (h : s.DrivesSeq op) :
    (controlOfOp op s.full s.empty).pcSel = .seq := by
  rcases h with rfl | rfl | rfl | ⟨rfl, hsp⟩ | ⟨rfl, hsp⟩
  · rfl
  · rfl
  · rfl
  · rw [State.full_iff.mpr hsp]; rfl
  · rw [State.empty_iff.mpr hsp]; rfl

/-- A handler whose row drives SEQ leaves the advanced pc as it is. -/
theorem exec_pc_of_drivesSeq {w : Word} (hop : s.DrivesSeq (opTag w)) (h : exec (decode w) s = .next t) :
    t.pc = s.pc := by
  rcases hop with hop | hop | hop | ⟨hop, hsp⟩ | ⟨hop, hsp⟩
  · rw [decode_of_opTag_halt hop, exec_halt] at h; cases h; rfl
  · rw [decode_of_opTag_add hop, exec_add] at h; cases h; rfl
  · rw [decode_of_opTag_unimpl hop, exec_unimplemented] at h; cases h; rfl
  · rw [decode_of_opTag_call hop, exec_call_of_full _ hsp] at h; cases h; rfl
  · rw [decode_of_opTag_ret hop, exec_ret_of_empty hsp] at h; cases h; rfl

theorem controlOfOp_call_pcSel (hsp : s.sp.toNat < 16) : (controlOfOp .call s.full s.empty).pcSel = .call := by
  have hfull : s.full = false := by rw [← Bool.not_eq_true, State.full_iff]; omega
  rw [hfull]; rfl

theorem controlOfOp_ret_pcSel (hsp : 0 < s.sp.toNat) : (controlOfOp .ret s.full s.empty).pcSel = .ret := by
  have hempty : s.empty = false := by rw [← Bool.not_eq_true, State.empty_iff]; omega
  rw [hempty]; rfl

/-- What RETURN takes as pc is the top entry, at sp - 1 (42_stack R162). -/
theorem State.popData_eq (hpos : 0 < s.sp.toNat) (hsp : s.sp.toNat ≤ 16) :
    s.popData = s.entry (BitVec.ofNat 4 (s.sp.toNat - 1)) := by
  have htop : s.topIndex = BitVec.ofNat 4 (s.sp.toNat - 1) := by
    apply BitVec.eq_of_toNat_eq
    rw [State.topIndex_toNat hpos hsp, BitVec.toNat_ofNat]; omega
  rw [State.popData, htop]

/-- In range, the select of a RUNNING machine and the pc its step leaves, by the row of the fetched word. -/
theorem running_pc_in_range (p : OpenPorts) (cmd : Option HostCommand) (hr : s.status.state = .running)
    (hsp : s.sp.toNat ≤ 16) (hpc : s.pc.toNat ≤ 0x0FFE) : ∃ t, step s = .next t ∧
    (s.DrivesSeq (opTag (s.wordAt s.pc)) → (unitControl p cmd s).pcSel = .seq ∧ t.pc = s.pc + 2) ∧
    (opTag (s.wordAt s.pc) = .call → s.sp.toNat < 16 →
      (unitControl p cmd s).pcSel = .call ∧ t.pc = (fields (s.wordAt s.pc)).nnn.setWidth 16) ∧
    (opTag (s.wordAt s.pc) = .ret → 0 < s.sp.toNat →
      (unitControl p cmd s).pcSel = .ret ∧ t.pc = s.entry (BitVec.ofNat 4 (s.sp.toNat - 1))) := by
  obtain ⟨u, hu⟩ := exec_answers (s := s.advance) (decode (s.wordAt s.pc)) hsp
  rw [unitControl_of_le p cmd hr hpc]
  refine ⟨_, step_of_exec_next hr hpc hu, fun hop => ?seq, fun hop hlt => ?call, fun hop hpos => ?ret⟩
  case seq =>
    exact ⟨controlOfOp_pcSel_of_drivesSeq hop, (endRun_pc u).trans (exec_pc_of_drivesSeq (s := s.advance) hop hu)⟩
  case call =>
    rw [decode_of_opTag_call hop, exec_call_of_lt (s := s.advance) _ hlt] at hu
    cases hu
    rw [hop]
    exact ⟨controlOfOp_call_pcSel hlt, endRun_pc _⟩
  case ret =>
    rw [decode_of_opTag_ret hop, exec_ret_of_live (s := s.advance) hpos hsp] at hu
    cases hu
    rw [hop]
    exact ⟨controlOfOp_ret_pcSel hpos, (endRun_pc _).trans (State.popData_eq (s := s.advance) hpos hsp)⟩

/-- A write_pc that is not refused sets the pc (70_reset_and_hazards R245). -/
theorem hostCommand_writePc_pc (v : Word) (h : s.status.state ≠ .faulted) : (hostCommand (.writePc v) s).pc = v := by
  rw [hostCommand, State.unlessFaulted_of_ne _ h]; rfl

/-- Every host command but reset and a write_pc that is not refused holds the pc (40_cycle R105). -/
theorem hostCommand_pc {c : HostCommand} (hreset : c ≠ .reset)
    (hpc : ∀ v, c = .writePc v → s.status.state = .faulted) : (hostCommand c s).pc = s.pc := by
  rcases hostCommand_cases c s with ⟨hc, -⟩ | ⟨-, h⟩ | ⟨-, -, h⟩ | ⟨-, a, b, -, h⟩ | ⟨-, i, v, -, h⟩ |
    ⟨hf, v, hc, -⟩ | ⟨-, r, h⟩
  case inl => exact absurd hc hreset
  case inr.inr.inr.inr.inr.inl => exact absurd (hpc v hc) hf
  all_goals rw [h]; simp

/-- Settles O17: the rows of the select table for a RUNNING machine, then those of a stopped one. -/
theorem pcAfterEachStep : Obligations.PcAfterEachStep := by
  have hcodes : ∀ sel : PcSel, sel.code.toNat ≤ 4 := by intro sel; cases sel <;> decide
  refine ⟨⟨rfl, rfl, rfl, rfl, rfl, hcodes⟩, fun p cmd s hr hsp => ?running, fun p s hr => ?stopped⟩
  case running =>
    rcases Nat.lt_or_ge 0x0FFE s.pc.toNat with hpc | hpc
    · have hsel : (unitControl p cmd s).pcSel = .hold := by rw [unitControl_of_gt p cmd hr hpc]
      exact ⟨_, .hold, step_of_pc_out_of_range hr hpc, hsel, fun _ => ⟨rfl, endRun_pc _⟩,
        fun hle => absurd hpc (Nat.not_lt.mpr hle)⟩
    · obtain ⟨t, hstep, hseq, hcall, hret⟩ := running_pc_in_range p cmd hr hsp hpc
      exact ⟨t, _, hstep, rfl, fun hgt => absurd hgt (Nat.not_lt.mpr hpc),
        fun _ => ⟨fun op hop h => hseq (hop ▸ h), hcall, hret⟩⟩
  case stopped =>
    simp only [unitControl_stopped p _ hr]
    refine ⟨fun v hf => ⟨controlStopped_pcSel_writePc v hf, hostCommand_writePc_pc v hf⟩, fun c hreset hc => ?other,
      rfl, fun hnil => ⟨_, step_stopped hr, by rw [hostStep_nil hnil]⟩⟩
    have hsel : ∀ v, some c = some (.writePc v) → s.status.state = .faulted := fun v h => hc v (Option.some.inj h)
    exact ⟨controlStopped_pcSel_hold hsel, hostCommand_pc hreset hc⟩

end Sys2Proof.Machine
end

section
/-! The alu family (spec/41_alu.md): the sum and its carry, and ADD with its frame. -/

namespace Sys2Proof.Machine

/-! ## The alu's outputs (41_alu R140) -/

/-- Zero-extending the carry keeps its value (10_state R24). -/
theorem flagByte_toNat_eq_carry (c : BitVec 1) : (flagByte c).toNat = c.toNat :=
  BitVec.toNat_setWidth_of_le (by decide)

/-- The carry is set exactly by a sum above 255: two bytes add up to less than 512, so their ninth bit is the last. -/
theorem aluCarry_toNat (a b : Byte) : (aluCarry a b).toNat = if 255 < a.toNat + b.toNat then 1 else 0 := by
  rw [← flagByte_toNat_eq_carry, flagByte_toNat]
  have ha := a.isLt
  have hb := b.isLt
  split <;> omega

/-- Settles O18: the sum is the low eight bits of the nine-bit sum, the carry the bit above them. -/
theorem aluAddsModulo256WithCarry : Obligations.AluAddsModulo256WithCarry := fun a b =>
  ⟨aluSum_toNat a b, aluCarry_toNat a b⟩

/-! ## ADD (41_alu R141, R143) -/

theorem fields_x_encode_add (x y : Nibble) : (fields (encode (.add x y))).x = x := by
  apply BitVec.eq_of_toNat_eq
  rw [fields_x_toNat, encode_add_toNat]
  omega

theorem fields_y_encode_add (x y : Nibble) : (fields (encode (.add x y))).y = y := by
  apply BitVec.eq_of_toNat_eq
  rw [fields_y_toNat, encode_add_toNat]
  omega

theorem decode_encode_add (x y : Nibble) : decode (encode (.add x y)) = .add x y := by
  rw [decode_of_opTag_add (Laws.EncodeOpTag.add x y rfl), fields_x_encode_add, fields_y_encode_add]

/-- Below register 15 the destination of a result and its flag holds the result. -/
theorem State.resultReg_writeResultAndFlag (s : State) {x : Nibble} (v f : Byte) (hx : x ≠ 15) :
    (s.writeResultAndFlag x v f).reg x = v := by
  rw [State.reg_writeResultAndFlag, if_neg hx, if_pos rfl]

/-- A result and its flag leave every register but the destination and register 15 as it was. -/
theorem State.otherReg_writeResultAndFlag (s : State) {x r : Nibble} (v f : Byte) (hx : r ≠ x) (hf : r ≠ 15) :
    (s.writeResultAndFlag x v f).reg r = s.reg r := by
  rw [State.reg_writeResultAndFlag, if_neg hf, if_neg hx]

/-- Settles O19: the result and the flag come from the operands as they were before either write, and the flag, written
second, wins when x is 15. -/
theorem addWritesSumThenFlag : Obligations.AddWritesSumThenFlag := by
  refine fun x y => ⟨decode_encode_add x y, fun s =>
    ⟨_, exec_add s x y, fun hx => ?sum, ?flag, fun r hrx hr => ?other, rfl, rfl, rfl, rfl, rfl, rfl⟩⟩
  case sum =>
    rw [State.resultReg_writeResultAndFlag s _ _ hx]
    exact aluSum_toNat (s.reg x) (s.reg y)
  case flag => rw [State.flagReg_writeResultAndFlag, flagByte_toNat_eq_carry, aluCarry_toNat]
  case other => exact State.otherReg_writeResultAndFlag s _ _ hrx hr

end Sys2Proof.Machine
end

section
/-! The stack family (spec/42_stack.md): CALL and RETURN with their frames. -/

namespace Sys2Proof.Machine

/-! ## CALL (42_stack R163, 60_exceptions R201) -/

theorem fields_nnn_encode_call (nnn : Addr) : (fields (encode (.call nnn))).nnn = nnn := by
  apply BitVec.eq_of_toNat_eq
  rw [fields_nnn_toNat, encode_call_toNat]
  omega

theorem decode_encode_call (nnn : Addr) : decode (encode (.call nnn)) = .call nnn := by
  rw [decode_of_opTag_call (Laws.EncodeOpTag.call nnn rfl), fields_nnn_encode_call]

variable {s : State}

/-- Below a full stack a push writes the entry numbered sp and no other (42_stack R161). -/
theorem State.entry_push_of_lt (v : Word) (j : Nibble) (h : s.sp.toNat < 16) :
    (s.push v).entry j = if j.toNat = s.sp.toNat then v else s.entry j := by
  simp only [State.entry_push, ← BitVec.toNat_inj, State.pushIndex_toNat h, eq_comm]

/-- Settles O21: the push goes to the entry numbered sp, and a full stack takes none. The fault's word is the CALL's own
encoding. -/
theorem callPushesAndJumpsOrOverflows : Obligations.CallPushesAndJumpsOrOverflows := by
  refine fun nnn => ⟨decode_encode_call nnn, fun s hlt => ?push, fun s hfull => ?overflow⟩
  case push =>
    exact ⟨_, exec_call_of_lt nnn hlt, fun j => State.entry_push_of_lt s.pc j hlt, State.push_sp_toNat s.pc hlt,
      rfl, rfl, rfl, rfl, rfl⟩
  case overflow => exact ⟨_, exec_call_of_full nnn hfull, rfl, rfl, rfl, rfl, rfl, rfl, rfl⟩

/-! ## RETURN (42_stack R164, 60_exceptions R202) -/

/-- Under the invariant what a pop of a live stack returns is some CALL's advanced pc: the top entry is live. -/
theorem State.Inv.advancedPc_popData (hinv : s.Inv) (hpos : 0 < s.sp.toNat) : advancedPc s.popData := by
  have htop : s.topIndex.toNat < s.sp.toNat := by
    rw [State.topIndex_toNat hpos hinv.sp_le]
    omega
  exact hinv.live s.topIndex htop

/-- Settles O22: the pop takes the top entry as pc, an advanced pc under the invariant, and an empty stack gives none. -/
theorem returnPopsOrUnderflows : Obligations.ReturnPopsOrUnderflows := by
  refine ⟨rfl, fun s hpos hle => ?pop, fun s hinv hpos => ?range, fun s hempty => ?underflow⟩
  case pop =>
    exact ⟨_, exec_ret_of_live hpos hle, State.pop_sp_toNat hpos, State.popData_eq hpos hle, rfl, rfl, rfl, rfl, rfl⟩
  case range => exact ⟨_, exec_ret_of_live hpos hinv.sp_le, hinv.advancedPc_popData hpos⟩
  case underflow => exact ⟨_, exec_ret_of_empty hempty, rfl, rfl, rfl, rfl, rfl, rfl, rfl⟩

end Sys2Proof.Machine
end

section
/-! The exceptions family (spec/60_exceptions.md): the fault each handler raises, the four faults of a RUNNING step, and
the FAULTED state. -/

namespace Sys2Proof.Machine

variable {s t : State}

/-! ## The fault a handler raises (60_exceptions R201–R203) -/

/-- Settles O29: UNIMPL's one effect is its fault, which carries the word that was decoded. -/
theorem unimplementedWordTakesTheFault : Obligations.UnimplementedWordTakesTheFault :=
  ⟨fun _ => decode_of_opTag_unimpl,
    fun w s => ⟨_, exec_unimplemented s w, rfl, rfl, rfl, rfl, rfl, rfl, rfl⟩⟩

theorem opTag_eq_ret_iff (w : Word) : opTag w = .ret ↔ w = 0x00EE := by
  rw [opTag_eq_iff_pattern, ← BitVec.toNat_inj]; rfl

/-- A CALL word is given back by encoding its target, so the word its fault records is the one fetched. -/
theorem encode_call_fields_nnn {w : Word} (h : opTag w = .call) : encode (.call (fields w).nnn) = w := by
  have hc : w.toNat / 4096 = 0x2 := (opTag_eq_iff_pattern w .call).mp h
  apply BitVec.eq_of_toNat_eq
  rw [encode_call_toNat, fields_nnn_toNat]
  omega

/-- The cause a handler raises when it faults; HALT's and ADD's never do (60_exceptions R200, R209). -/
def handlerCause : OpTag → Cause
  | .unimpl => .unimplementedOpcode
  | .call => .stackOverflow
  | .ret => .stackUnderflow
  | .halt => .none
  | .add => .none

/-- A handler that faults does nothing but raise its cause with the word it was dispatched on (60_exceptions R205). -/
theorem exec_of_handlerFaults {w : Word} (h : s.HandlerFaults (opTag w)) :
    exec (decode w) s = .next (s.raise (handlerCause (opTag w)) w) := by
  rcases h with hop | ⟨hop, hsp⟩ | ⟨hop, hsp⟩
  · rw [decode_of_opTag_unimpl hop, exec_unimplemented, hop]; rfl
  · rw [decode_of_opTag_call hop, exec_call_of_full _ hsp, encode_call_fields_nnn hop, hop]; rfl
  · rw [decode_of_opTag_ret hop, exec_ret_of_empty hsp, hop, (opTag_eq_ret_iff w).mp hop]; rfl

/-! ## The four faults of a RUNNING step (60_exceptions R200, R209) -/

/-- In range, a step whose handler faults raises the handler's cause on the advanced state, with the fetched word. -/
theorem step_of_handlerFaults (hr : s.status.state = .running) (hpc : s.pc.toNat ≤ 0x0FFE)
    (h : s.HandlerFaults (opTag (s.wordAt s.pc))) :
    step s = .next (endRun (s.advance.raise (handlerCause (opTag (s.wordAt s.pc))) (s.wordAt s.pc))) :=
  step_of_exec_next hr hpc (exec_of_handlerFaults (s := s.advance) h)

/-- What a step whose handler faults leaves in the status register. -/
theorem status_of_handlerFaults (hr : s.status.state = .running) (hpc : s.pc.toNat ≤ 0x0FFE)
    (h : s.HandlerFaults (opTag (s.wordAt s.pc))) (hstep : step s = .next t) :
    t.status = ⟨.faulted, handlerCause (opTag (s.wordAt s.pc)), s.wordAt s.pc⟩ := by
  rw [step_of_handlerFaults hr hpc h] at hstep
  cases hstep
  exact endRun_status _

theorem step_running_faulted_iff (hr : s.status.state = .running) (h : step s = .next t) :
    t.status.state = .faulted ↔ s.FaultsNext := by
  obtain ⟨-, hfaulted, -⟩ := step_running_transitions hr h
  exact hfaulted

/-- With sp in its legal range a RUNNING machine's step answers. -/
theorem step_running_answers (hr : s.status.state = .running) (hsp : s.sp.toNat ≤ 16) : ∃ t, step s = .next t := by
  rcases Nat.lt_or_ge 0x0FFE s.pc.toNat with hpc | hpc
  · exact ⟨_, step_of_pc_out_of_range hr hpc⟩
  · obtain ⟨u, hu⟩ := exec_answers (s := s.advance) (decode (s.wordAt s.pc)) hsp
    exact ⟨_, step_of_exec_next hr hpc hu⟩

/-- Settles O31: the fetch fault comes first, then the fault of the fetched word's handler, and no step faults on any
other condition. -/
theorem fourFaultsInTheirOrder : Obligations.FourFaultsInTheirOrder := by
  refine ⟨fun s hr hsp => ?_, rfl, rfl, rfl, rfl, rfl⟩
  obtain ⟨t, hstep⟩ := step_running_answers hr hsp
  refine ⟨t, hstep, fun hpc => ?fetch, fun hpc hop => ?unimpl, fun hpc hop hfull => ?overflow,
    fun hpc hop hempty => ?underflow, fun hpc hunimpl hcall hret hfaulted => ?other⟩
  case fetch =>
    rw [step_of_pc_out_of_range hr hpc] at hstep
    cases hstep
    exact endRun_status _
  case unimpl => rw [status_of_handlerFaults hr hpc (.inl hop) hstep, hop]; rfl
  case overflow => rw [status_of_handlerFaults hr hpc (.inr (.inl ⟨hop, hfull⟩)) hstep, hop]; rfl
  case underflow =>
    rw [status_of_handlerFaults hr hpc (.inr (.inr ⟨hop, hempty⟩)) hstep, hop, (opTag_eq_ret_iff _).mp hop]; rfl
  case other =>
    rcases (step_running_faulted_iff hr hstep).mp hfaulted with hgt | hop | hop | hop
    · exact Nat.not_lt.mpr hpc hgt
    · exact hunimpl hop
    · exact hcall hop
    · exact hret hop

/-! ## The FAULTED state (60_exceptions R206, R207) -/

/-- Everything a RUNNING step that ends FAULTED can have done: the fetch fault on the state as it was, or the handler's
fault on the advanced state. -/
theorem step_faulted_cases (hr : s.status.state = .running) (h : step s = .next t) (hf : t.status.state = .faulted) :
    (0x0FFE < s.pc.toNat ∧ t = endRun (s.raise .fetchOutOfRange s.pc)) ∨
    (s.pc.toNat ≤ 0x0FFE ∧ s.HandlerFaults (opTag (s.wordAt s.pc)) ∧
      t = endRun (s.advance.raise (handlerCause (opTag (s.wordAt s.pc))) (s.wordAt s.pc))) := by
  rcases Nat.lt_or_ge 0x0FFE s.pc.toNat with hpc | hpc
  · rw [step_of_pc_out_of_range hr hpc] at h
    cases h
    exact .inl ⟨hpc, rfl⟩
  · have hhandler : s.HandlerFaults (opTag (s.wordAt s.pc)) :=
      ((step_running_faulted_iff hr h).mp hf).resolve_left (Nat.not_lt.mpr hpc)
    rw [step_of_handlerFaults hr hpc hhandler] at h
    cases h
    exact .inr ⟨hpc, hhandler, rfl⟩

/-- FAULTED answers every command but reset, and does nothing else (70_reset_and_hazards R242). -/
theorem hostCommand_of_faulted {c : HostCommand} (hf : s.status.state = .faulted) (hc : c ≠ .reset) :
    ∃ r, hostCommand c s = s.respond r := by
  rcases hostCommand_cases c s with ⟨hreset, -⟩ | ⟨-, h⟩ | ⟨hne, -⟩ | ⟨hne, -⟩ | ⟨hne, -⟩ | ⟨hne, -⟩ | ⟨-, h⟩
  case inl => exact absurd hreset hc
  case inr.inl => exact ⟨_, h⟩
  case inr.inr.inr.inr.inr.inr => exact h
  all_goals exact absurd hf hne

/-- FAULTED refuses a run (60_exceptions R207). -/
theorem hostCommand_run_of_faulted (hf : s.status.state = .faulted) : hostCommand .run s = s.respond .refused :=
  State.unlessFaulted_of_faulted (s.enter .running) hf

/-- A FAULTED machine's core stands still in a step that does not perform the host's reset. -/
theorem step_faulted_sameCore (hf : s.status.state = .faulted) (hreset : ∀ rest, s.host.pending ≠ .reset :: rest)
    (h : step s = .next t) : s.SameCore t := by
  have hr : s.status.state ≠ .running := by simp [hf]
  rw [step_stopped hr] at h
  cases h
  cases hp : s.host.pending with
  | nil => rw [hostStep_nil hp]; exact ⟨rfl, rfl, rfl, rfl, rfl, rfl⟩
  | cons c rest =>
    have hc : c ≠ .reset := fun hc => hreset rest (hc ▸ hp)
    obtain ⟨r, hcmd⟩ := hostCommand_of_faulted (s := { s with host := ⟨rest, s.host.responses⟩ }) hf hc
    rw [hostStep_cons hp, hcmd]
    exact ⟨rfl, rfl, rfl, rfl, rfl, rfl⟩

/-- Settles O32: a fault changes the status register alone, after the advance unless the fetch raised it, and the core
then stands still. -/
theorem faultLeavesAPreciseFrozenState : Obligations.FaultLeavesAPreciseFrozenState := by
  refine ⟨fun s t hr h hf => ?_, fun s t hf hreset h => step_faulted_sameCore hf hreset h⟩
  rcases step_faulted_cases hr h hf with ⟨-, rfl⟩ | ⟨-, hop | ⟨hop, hsp⟩ | ⟨hop, hsp⟩, rfl⟩
  · simp
  · simp [hop, handlerCause]
  · simp [hop, handlerCause, BitVec.eq_of_toNat_eq (y := 16#5) hsp]
  · simp [hop, handlerCause, BitVec.eq_of_toNat_eq (y := 0#5) hsp]

/-- Settles O33: any step without the reset keeps the status register, and a run gets the answer Refused alone. -/
theorem onlyResetLeavesFaulted : Obligations.OnlyResetLeavesFaulted := by
  refine ⟨fun s t hf h hne => ?reset, fun s rest hf hp => ?run⟩
  case reset =>
    by_contra hno
    have hcore := step_faulted_sameCore hf (fun rest hp => hno ⟨rest, hp⟩) h
    exact hne (hcore.status ▸ hf)
  case run =>
    have hr : s.status.state ≠ .running := by simp [hf]
    rw [step_stopped hr, hostStep_cons hp,
      hostCommand_run_of_faulted (s := { s with host := ⟨rest, s.host.responses⟩ }) hf]
    rfl

end Sys2Proof.Machine
end

section
/-! The host family (spec/70_reset_and_hazards.md): the commands that wait while RUNNING, the load, the host's writes and
reads, and reset. -/

namespace Sys2Proof.Machine

variable {s t : State}

/-! ## Commands while RUNNING (70_reset_and_hazards R248) -/

/-- A RUNNING machine's step takes no pending command. -/
theorem step_running_pending (hr : s.status.state = .running) (h : step s = .next t) :
    t.host.pending = s.host.pending := by
  obtain ⟨-, -, -, hpending, -⟩ := step_running_transitions hr h
  exact hpending

theorem steps_succ_of_next {u : State} (n : Nat) (h : step s = .next u) : steps (n + 1) s = steps n u := by
  simp [steps, h]

/-- What several steps did first, when they answer. -/
theorem steps_succ_some {n : Nat} (h : steps (n + 1) s = some t) : ∃ u, step s = .next u ∧ steps n u = some t := by
  simp only [steps] at h
  split at h
  · next u hu => exact ⟨u, hu, h⟩
  · cases h
  · cases h

/-- Settles O38, by induction on the number of steps: the first keeps the pending list, and the rest start RUNNING too. -/
theorem commandsWaitWhileRunning : Obligations.CommandsWaitWhileRunning := by
  intro n
  induction n with
  | zero =>
    intro s t _ h
    cases h
    rfl
  | succ n ih =>
    intro s t hrun h
    obtain ⟨u, hu, hrest⟩ := steps_succ_some h
    have hfirst : u.host.pending = s.host.pending := step_running_pending (hrun 0 n.succ_pos s rfl) hu
    have hrun' : ∀ m < n, ∀ v, steps m u = some v → v.status.state = .running := fun m hm v hv =>
      hrun (m + 1) (Nat.succ_lt_succ hm) v ((steps_succ_of_next m hu).trans hv)
    exact (ih u t hrun' hrest).trans hfirst

/-! ## The bytes of a load (70_reset_and_hazards R243) -/

/-- Reading after a run of bytes is written: the byte at the address's distance above the start, if the run reaches it.
The distance is taken around the end of memory, as the writes' addresses are. -/
theorem Memory.read_writeList {m : Memory} (a c : Addr) (b : List Byte) (h : m.wf = true) (hlen : b.length ≤ 4096) :
    (m.writeList a b).read c = b[(c - a).toNat]?.getD (m.read c) := by
  induction b generalizing m a with
  | nil => rfl
  | cons v rest ih =>
    rw [List.length_cons] at hlen
    rw [Memory.writeList, ih (a + 1) (Memory.write_wf a v h) (by omega), Memory.read_write a c v h]
    by_cases hc : c = a
    · subst hc
      have hlast : (c - (c + 1)).toNat = 4095 := by bv_omega
      rw [hlast, List.getElem?_eq_none (by omega)]
      simp
    · have hdist : (c - a).toNat = (c - (a + 1)).toNat + 1 := by bv_omega
      simp [hdist, hc]

/-- A run of bytes that fits in memory: each byte stands at its own address. -/
theorem Memory.read_writeList_inside {m : Memory} {a : Nat} {b : List Byte} (h : m.wf = true)
    (hfit : a + b.length ≤ 4096) (k : Nat) (hk : k < b.length) :
    (m.writeList (BitVec.ofNat 12 a) b).read (BitVec.ofNat 12 (a + k)) = b[k] := by
  have hdist : (BitVec.ofNat 12 (a + k) - BitVec.ofNat 12 a).toNat = k := by
    simp only [BitVec.toNat_sub, BitVec.toNat_ofNat]; omega
  rw [Memory.read_writeList _ _ b h (by omega), hdist, List.getElem?_eq_getElem hk, Option.getD_some]

/-- A run of bytes that fits in memory: no other byte is written. -/
theorem Memory.read_writeList_outside {m : Memory} {a : Nat} {b : List Byte} (h : m.wf = true)
    (hfit : a + b.length ≤ 4096) (c : Addr) (hc : c.toNat < a ∨ a + b.length ≤ c.toNat) :
    (m.writeList (BitVec.ofNat 12 a) b).read c = m.read c := by
  have hdist : b.length ≤ (c - BitVec.ofNat 12 a).toNat := by
    simp only [BitVec.toNat_sub, BitVec.toNat_ofNat]; omega
  rw [Memory.read_writeList _ _ b h (by omega), List.getElem?_eq_none hdist, Option.getD_none]

/-! ## What a load leaves unchanged -/

@[simp] theorem load_regs (s : State) (a : Nat) (b : List Byte) : (s.load a b).regs = s.regs := by
  rcases load_cases s a b with ⟨-, h⟩ | ⟨-, h⟩ <;> rw [h] <;> rfl

@[simp] theorem load_stack (s : State) (a : Nat) (b : List Byte) : (s.load a b).stack = s.stack := by
  rcases load_cases s a b with ⟨-, h⟩ | ⟨-, h⟩ <;> rw [h] <;> rfl

@[simp] theorem load_sp (s : State) (a : Nat) (b : List Byte) : (s.load a b).sp = s.sp := by
  rcases load_cases s a b with ⟨-, h⟩ | ⟨-, h⟩ <;> rw [h] <;> rfl

/-! ## The commands that FAULTED refuses, in IDLE and HALTED -/

theorem State.ne_faulted_of_idle_or_halted (h : s.status.state = .idle ∨ s.status.state = .halted) :
    s.status.state ≠ .faulted := by
  rcases h with h | h <;> simp [h]

theorem hostCommand_load_of_not_faulted (a : Nat) (b : List Byte) (h : s.status.state ≠ .faulted) :
    hostCommand (.load a b) s = s.load a b :=
  State.unlessFaulted_of_ne (s.load a b) h

theorem hostCommand_writePc_of_not_faulted (v : Word) (h : s.status.state ≠ .faulted) :
    hostCommand (.writePc v) s = (s.setPc v).respond .ok :=
  State.unlessFaulted_of_ne ((s.setPc v).respond .ok) h

theorem hostCommand_run_of_not_faulted (h : s.status.state ≠ .faulted) : hostCommand .run s = s.enter .running :=
  State.unlessFaulted_of_ne (s.enter .running) h

/-- Settles O39: the load that is rejected whole, the load that fits, and the frame of both. -/
theorem loadWritesItsBytesOrNothing : Obligations.LoadWritesItsBytesOrNothing := by
  intro s a b hwf hs
  refine ⟨s.load a b, hostCommand_load_of_not_faulted a b (State.ne_faulted_of_idle_or_halted hs),
    fun hgt => ?rejected, fun hfit => ?written, load_regs s a b, load_pc s a b, load_stack s a b, load_sp s a b,
    load_status s a b⟩
  case rejected =>
    rcases load_cases s a b with ⟨-, h⟩ | ⟨hle, -⟩
    · rw [h]; exact ⟨rfl, rfl⟩
    · exact absurd hgt (Nat.not_lt.mpr hle)
  case written =>
    rcases load_cases s a b with ⟨hgt, -⟩ | ⟨-, h⟩
    · exact absurd hgt (Nat.not_lt.mpr hfit)
    · rw [h]
      exact ⟨Memory.read_writeList_inside hwf hfit, Memory.read_writeList_outside hwf hfit, rfl⟩

/-! ## write_reg (70_reset_and_hazards R244) -/

/-- Settles O40: the host's register write is unrestricted and touches that register alone. -/
theorem writeRegSetsAnyRegister : Obligations.WriteRegSetsAnyRegister := by
  intro s i v hs
  refine ⟨_, hostCommand_writeReg_of_not_faulted i v (State.ne_faulted_of_idle_or_halted hs), ?same,
    fun r hr => ?other, rfl, rfl, rfl, rfl, rfl, rfl⟩
  case same => rw [State.respond_reg, State.reg_setReg, if_pos rfl]
  case other => rw [State.respond_reg, State.reg_setReg, if_neg hr.symm]

/-! ## write_pc, and what the host cannot write (70_reset_and_hazards R245) -/

/-- No command but reset writes sp, the stack, or the cause and info of status. -/
theorem hostCommand_stack_cause_info {c : HostCommand} (hreset : c ≠ .reset) :
    (hostCommand c s).sp = s.sp ∧ (hostCommand c s).stack = s.stack ∧
    (hostCommand c s).status.cause = s.status.cause ∧ (hostCommand c s).status.info = s.status.info := by
  rcases hostCommand_cases c s with ⟨hc, -⟩ | ⟨-, h⟩ | ⟨-, -, h⟩ | ⟨-, a, b, -, h⟩ | ⟨-, i, v, -, h⟩ |
    ⟨-, v, -, h⟩ | ⟨-, r, h⟩
  case inl => exact absurd hc hreset
  all_goals rw [h]; simp

/-- A run after a write_pc out of range takes the fetch fault in its first step and leaves that pc. -/
theorem step_run_of_writePc_out_of_range {v : Word} (hf : s.status.state ≠ .faulted) (hv : 0x0FFE < v.toNat) :
    ∃ t, step (hostCommand .run (hostCommand (.writePc v) s)) = .next t ∧
      t.status = ⟨.faulted, .fetchOutOfRange, v⟩ ∧ t.pc = v := by
  rw [hostCommand_writePc_of_not_faulted v hf,
    hostCommand_run_of_not_faulted (s := (s.setPc v).respond .ok) hf]
  exact ⟨_, step_of_pc_out_of_range rfl hv, endRun_status _, endRun_pc _⟩

/-- Settles O41: the unchecked write, the fault of the run that follows it, and the elements only reset can write. -/
theorem writePcUncheckedAndStackOutOfReach : Obligations.WritePcUncheckedAndStackOutOfReach := by
  refine ⟨fun s v hs => ?write, fun s v hs hv => ?fault, fun s c hreset => ?frame⟩
  case write => exact hostCommand_writePc_of_not_faulted v (State.ne_faulted_of_idle_or_halted hs)
  case fault => exact step_run_of_writePc_out_of_range (State.ne_faulted_of_idle_or_halted hs) hv
  case frame =>
    obtain ⟨hsp, hstack, hcause, hinfo⟩ := hostCommand_stack_cause_info (s := s) hreset
    exact ⟨hsp, hstack, hcause, hinfo, fun hrun => by rw [hostCommand_status hreset hrun]⟩

/-! ## The reads (70_reset_and_hazards R247) -/

/-- Settles O42, one read command at a time: each is the response alone. -/
theorem readsAnswerAndChangeNothing : Obligations.ReadsAnswerAndChangeNothing := by
  rintro s c r - (⟨i, rfl, rfl⟩ | ⟨a, rfl, rfl⟩ | ⟨rfl, rfl⟩ | ⟨rfl, rfl⟩ | ⟨j, rfl, rfl⟩ | ⟨rfl, rfl⟩)
  all_goals rfl

/-! ## reset (70_reset_and_hazards R240) -/

/-- The only command that leaves FAULTED is reset (60_exceptions R207). -/
theorem eq_reset_of_hostCommand_leaves_faulted {c : HostCommand} (hf : s.status.state = .faulted)
    (h : (hostCommand c s).status.state ≠ .faulted) : c = .reset := by
  by_contra hc
  obtain ⟨r, hcmd⟩ := hostCommand_of_faulted hf hc
  rw [hcmd, State.respond_status] at h
  exact h hf

/-- Settles O44: the reset values element by element, the way out of FAULTED, and the wait while RUNNING. -/
theorem hostResetRestoresEveryElement : Obligations.HostResetRestoresEveryElement := by
  refine ⟨fun s _ => ⟨_, rfl, State.reset_reg, rfl, State.reset_entry, rfl, fun _ => rfl, rfl⟩,
    fun s c hf h => eq_reset_of_hostCommand_leaves_faulted hf h, fun s t hr h => step_running_pending hr h⟩

end Sys2Proof.Machine
end

section
/-! Encoding and decoding as inverses (spec/30_encoding.md sections 2, 4 and 6), and the opcode table against the
decoder. -/

namespace Sys2Proof

open Laws.EncodeOpTag (tag)
open Machine (tag_decode opTag_eq_halt_iff opTag_eq_ret_iff decode_encode_call decode_encode_add encode_call_fields_nnn)

/-! ## Decoding an encoded instruction (30_encoding R78, R81) -/

theorem decode_encode {i : Instr} (h : i.wellFormed = true) : decode (encode i) = i := by
  cases i with
  | halt => rfl
  | ret => rfl
  | call nnn => exact decode_encode_call nnn
  | add x y => exact decode_encode_add x y
  | unimplemented w => exact decode_of_opTag_unimpl (Laws.EncodeOpTag.unimplemented w h)

/-- An instruction's two bytes decode as its word does, whatever bytes come after them. -/
theorem decodeBytes_encodeBytes_append (i : Instr) (rest : List Byte) :
    decodeBytes (encodeBytes i ++ rest) = .ok (decode (encode i), rest) := by
  rw [encodeBytes, List.cons_append, List.cons_append, List.nil_append, decodeBytes, wordOfBytes_bytes]

/-- Settles O9, by the instruction's row; the bytes make the word again. -/
theorem encodeThenDecodeGivesBackTheInstruction : Obligations.EncodeThenDecodeGivesBackTheInstruction := by
  refine fun i h => ⟨decode_encode h, fun rest => ?_⟩
  rw [decodeBytes_encodeBytes_append, decode_encode h]

/-! ## Encoding a decoded word (30_encoding R81) -/

/-- An ADD word is given back by encoding its two register fields. -/
theorem encode_add_fields {w : Word} (h : opTag w = .add) : encode (.add (fields w).x (fields w).y) = w := by
  obtain ⟨hc, hd⟩ : w.toNat / 4096 = 0x8 ∧ w.toNat % 16 = 0x4 := (opTag_eq_iff_pattern w .add).mp h
  apply BitVec.eq_of_toNat_eq
  rw [encode_add_toNat, fields_x_toNat, fields_y_toNat]
  omega

theorem encode_decode (w : Word) : encode (decode w) = w := by
  cases h : opTag w with
  | halt => rw [decode_of_opTag_halt h, (opTag_eq_halt_iff w).mp h]; rfl
  | ret => rw [decode_of_opTag_ret h, (opTag_eq_ret_iff w).mp h]; rfl
  | call => rw [decode_of_opTag_call h, encode_call_fields_nnn h]
  | add => rw [decode_of_opTag_add h, encode_add_fields h]
  | unimpl => rw [decode_of_opTag_unimpl h]; rfl

/-- The table's default row takes the words that the decoder calls UNIMPL (opcode_table.json, row UNIMPLEMENTED). -/
theorem definedWord_eq_false_iff (w : Word) : definedWord w = false ↔ opTag w = .unimpl := by
  rw [← Bool.not_eq_true, definedWord_iff, opTag_eq_iff_pattern]
  simp only [not_or]
  rfl

theorem wellFormed_decode (w : Word) : (decode w).wellFormed = true := by
  cases h : opTag w with
  | halt => rw [decode_of_opTag_halt h]; rfl
  | ret => rw [decode_of_opTag_ret h]; rfl
  | call => rw [decode_of_opTag_call h]; rfl
  | add => rw [decode_of_opTag_add h]; rfl
  | unimpl => rw [decode_of_opTag_unimpl h, Instr.wellFormed, (definedWord_eq_false_iff w).mpr h]; rfl

/-- Settles O10, by the word's op tag. -/
theorem decodeThenEncodeGivesBackTheWord : Obligations.DecodeThenEncodeGivesBackTheWord :=
  fun w => ⟨wellFormed_decode w, encode_decode w⟩

/-! ## The opcode table's rows (30_encoding R75, opcode_table.json) -/

/-- A row that masks no bit matches its pattern alone. -/
theorem covers_of_mask_allOnes (name : String) (pattern w : Word) :
    (⟨name, 0xFFFF, pattern⟩ : OpcodeRow).covers w = true ↔ w = pattern := by
  have hall : w &&& 0xFFFF#16 = w := BitVec.and_allOnes
  rw [OpcodeRow.covers, beq_iff_eq]
  change w &&& 0xFFFF#16 = pattern ↔ _
  rw [hall]

theorem covers_halt_iff_opTag (w : Word) : (⟨"HALT", 0xFFFF, 0x0000⟩ : OpcodeRow).covers w = true ↔ opTag w = .halt :=
  (covers_of_mask_allOnes _ _ w).trans (opTag_eq_halt_iff w).symm

theorem covers_ret_iff_opTag (w : Word) : (⟨"RETURN", 0xFFFF, 0x00EE⟩ : OpcodeRow).covers w = true ↔ opTag w = .ret :=
  (covers_of_mask_allOnes _ _ w).trans (opTag_eq_ret_iff w).symm

theorem covers_call_iff_opTag (w : Word) : (⟨"CALL", 0xF000, 0x2000⟩ : OpcodeRow).covers w = true ↔ opTag w = .call :=
  (covers_call w).trans (opTag_eq_iff_pattern w .call).symm

theorem covers_add_iff_opTag (w : Word) : (⟨"ADD", 0xF00F, 0x8004⟩ : OpcodeRow).covers w = true ↔ opTag w = .add :=
  (covers_add w).trans (opTag_eq_iff_pattern w .add).symm

/-- The table's row for an op tag; the default row has no pattern. -/
def OpTag.row : OpTag → Option OpcodeRow
  | .halt => some ⟨"HALT", 0xFFFF, 0x0000⟩
  | .ret => some ⟨"RETURN", 0xFFFF, 0x00EE⟩
  | .call => some ⟨"CALL", 0xF000, 0x2000⟩
  | .add => some ⟨"ADD", 0xF00F, 0x8004⟩
  | .unimpl => none

/-- A row of the table that matches a word is the row of the word's op tag. -/
theorem row_opTag_of_covers {r : OpcodeRow} {w : Word} (hr : r ∈ opcodeRows) (h : r.covers w = true) :
    (opTag w).row = some r := by
  simp only [opcodeRows, List.mem_cons, List.not_mem_nil, or_false] at hr
  rcases hr with rfl | rfl | rfl | rfl
  · rw [(covers_halt_iff_opTag w).mp h]; rfl
  · rw [(covers_ret_iff_opTag w).mp h]; rfl
  · rw [(covers_call_iff_opTag w).mp h]; rfl
  · rw [(covers_add_iff_opTag w).mp h]; rfl

/-- The op tag is read off the decoded instruction. -/
theorem opTag_of_decode_eq {w : Word} {i : Instr} (h : decode w = i) : opTag w = tag i := by
  rw [← h, tag_decode]

/-- Settles O8: each row's mask and pattern against the op tag, the op tag against the decoder, and the op tag names the
one row that matches. -/
theorem opcodeTableAgreesWithDecoder : Obligations.OpcodeTableAgreesWithDecoder := by
  refine ⟨rfl, fun w => ⟨⟨covers_halt_iff_opTag w, decode_of_opTag_halt, opTag_of_decode_eq⟩,
    ⟨covers_ret_iff_opTag w, decode_of_opTag_ret, opTag_of_decode_eq⟩,
    ⟨covers_call_iff_opTag w, fun h => ⟨_, decode_of_opTag_call h⟩, fun ⟨_, h⟩ => opTag_of_decode_eq h⟩,
    ⟨covers_add_iff_opTag w, fun h => ⟨_, _, decode_of_opTag_add h⟩, fun ⟨_, _, h⟩ => opTag_of_decode_eq h⟩,
    ⟨definedWord_eq_false_iff w, decode_of_opTag_unimpl, opTag_of_decode_eq⟩, fun r₁ h₁ r₂ h₂ hc₁ hc₂ => ?_⟩⟩
  exact Option.some.inj ((row_opTag_of_covers h₁ hc₁).symm.trans (row_opTag_of_covers h₂ hc₂))

/-- Settles O5, word by word. -/
theorem specWordsDecode : Obligations.SpecWordsDecode := by
  unfold Obligations.SpecWordsDecode
  decide

end Sys2Proof
end

section
/-! The invariant of every run (spec/10_state.md sections 3 and 5, 42_stack.md section 3, 60_exceptions.md sections 1
and 2): it holds at reset, and every instruction and host command keeps it. -/

namespace Sys2Proof.Machine

variable {s t : State}

/-! ## What the invariant looks at -/

/-- Settles O2: reset memory is canonical, nothing is live and no fault is recorded. -/
theorem resetMeetsInvariant : Obligations.ResetMeetsInvariant where
  mem_wf := Memory.reset_wf
  sp_le := Nat.zero_le _
  clean := fun _ => ⟨rfl, rfl⟩
  recorded := FsmState.noConfusion
  live := fun _ h => absurd h (Nat.not_lt_zero _)

/-- The invariant speaks of the core alone, not of the host's port. -/
theorem State.Inv.of_sameCore (h : s.Inv) (hc : s.SameCore t) : t.Inv := by
  obtain ⟨hregs, hpc, hstack, hsp, hmem, hstatus⟩ := hc
  obtain ⟨regs, pc, stack, sp, mem, status, host⟩ := t
  subst hregs hpc hstack hsp hmem hstatus
  obtain ⟨hwf, hle, hclean, hrec, hlive⟩ := h
  exact ⟨hwf, hle, hclean, hrec, hlive⟩

theorem State.sameCore_respond (s : State) (r : HostResponse) : s.SameCore (s.respond r) :=
  ⟨rfl, rfl, rfl, rfl, rfl, rfl⟩

theorem State.Inv.respond (h : s.Inv) (r : HostResponse) : (s.respond r).Inv :=
  h.of_sameCore (s.sameCore_respond r)

theorem State.sameCore_endRun (s : State) : s.SameCore (endRun s) :=
  ⟨endRun_regs s, endRun_pc s, endRun_stack s, endRun_sp s, endRun_mem s, endRun_status s⟩

/-- Between machines that are not FAULTED the invariant needs canonical memory, and the same stack, cause and info. -/
theorem State.Inv.of_ne_faulted (h : s.Inv) (hs : s.status.state ≠ .faulted) (ht : t.status.state ≠ .faulted)
    (hmem : t.mem.wf = true) (hstack : t.stack = s.stack) (hsp : t.sp = s.sp)
    (hcause : t.status.cause = s.status.cause) (hinfo : t.status.info = s.status.info) : t.Inv where
  mem_wf := hmem
  sp_le := hsp ▸ h.sp_le
  clean := fun _ => by rw [hcause, hinfo]; exact h.clean hs
  recorded := fun hf => absurd hf ht
  live := fun j hj => by
    simp only [State.entry, hstack]
    exact h.live j (hsp ▸ hj)

/-- Taking a fault keeps the invariant when the fault could have happened. -/
theorem State.Inv.raise {c : Cause} {w : Word} (h : s.Inv) (hr : (s.raise c w).recordsFault) : (s.raise c w).Inv where
  mem_wf := h.mem_wf
  sp_le := h.sp_le
  clean := fun hf => absurd rfl hf
  recorded := fun _ => hr
  live := h.live

/-! ## Instructions keep the invariant -/

/-- The push of an advanced pc and a jump keep the invariant: the new live entry is that pc (42_stack R163, R164). -/
theorem State.Inv.push_setPc (h : s.Inv) (hf : s.status.state ≠ .faulted) (hpc : advancedPc s.pc)
    (hlt : s.sp.toNat < 16) (target : Word) : ((s.push s.pc).setPc target).Inv where
  mem_wf := h.mem_wf
  sp_le := by rw [State.setPc_sp, State.push_sp_toNat s.pc hlt]; omega
  clean := fun _ => h.clean hf
  recorded := fun hfault => absurd hfault hf
  live := fun j hj => by
    rw [State.setPc_sp, State.push_sp_toNat s.pc hlt] at hj
    rw [State.setPc_entry, State.entry_push_of_lt s.pc j hlt]
    split
    · exact hpc
    · exact h.live j (by omega)

/-- A pop and a jump keep the invariant: fewer entries are live. -/
theorem State.Inv.pop_setPc (h : s.Inv) (hf : s.status.state ≠ .faulted) (hpos : 0 < s.sp.toNat) (target : Word) :
    (s.pop.setPc target).Inv where
  mem_wf := h.mem_wf
  sp_le := by
    have := h.sp_le
    rw [State.setPc_sp, State.pop_sp_toNat hpos]
    omega
  clean := fun _ => h.clean hf
  recorded := fun hfault => absurd hfault hf
  live := fun j hj => by
    rw [State.setPc_sp, State.pop_sp_toNat hpos] at hj
    exact h.live j (by omega)

/-- On a RUNNING machine whose pc is just advanced, the handler of any word keeps the invariant. -/
theorem exec_decode_keeps_inv {w : Word} (h : s.Inv) (hr : s.status.state = .running) (hpc : advancedPc s.pc)
    (hexec : exec (decode w) s = .next t) : t.Inv := by
  have hf : s.status.state ≠ .faulted := by simp [hr]
  rcases exec_cases hexec with ⟨-, rfl⟩ | ⟨x, y, -, rfl⟩ | ⟨nnn, -, hlt, rfl⟩ | ⟨nnn, hi, hfull, rfl⟩ |
    ⟨-, hpos, -, rfl⟩ | ⟨-, hempty, rfl⟩ | ⟨v, hi, rfl⟩
  · exact h.of_ne_faulted hf FsmState.noConfusion h.mem_wf rfl rfl rfl rfl
  · exact h.of_ne_faulted hf hf h.mem_wf rfl rfl rfl rfl
  · exact h.push_setPc hf hpc hlt _
  · exact h.raise ⟨Laws.EncodeOpTag.call nnn rfl, BitVec.eq_of_toNat_eq hfull, hpc⟩
  · exact h.pop_setPc hf hpos _
  · exact h.raise ⟨rfl, BitVec.eq_of_toNat_eq hempty, hpc⟩
  · have hv : opTag v = .unimpl := by
      have hwf := wellFormed_decode w
      rw [hi] at hwf
      exact Laws.EncodeOpTag.unimplemented v hwf
    exact h.raise ⟨hv, hpc⟩

theorem instructionStep_keeps_inv (h : s.Inv) (hr : s.status.state = .running) (hstep : instructionStep s = .next t) :
    t.Inv := by
  have hf : s.status.state ≠ .faulted := by simp [hr]
  rcases instructionStep_cases hstep with ⟨hpc, rfl⟩ | ⟨hpc, hexec⟩
  · exact h.raise ⟨rfl, hpc⟩
  · have hadv : s.advance.Inv := h.of_ne_faulted hf hf h.mem_wf rfl rfl rfl rfl
    have hpc' : advancedPc s.advance.pc := by rw [advancedPc, State.advance_pc_toNat hpc]; omega
    exact exec_decode_keeps_inv hadv hr hpc' hexec

/-! ## Host commands keep the invariant -/

theorem State.Inv.load (h : s.Inv) (hf : s.status.state ≠ .faulted) (a : Nat) (b : List Byte) : (s.load a b).Inv := by
  rcases load_cases s a b with ⟨-, hl⟩ | ⟨-, hl⟩
  · rw [hl]
    exact h.respond _
  · rw [hl]
    exact h.of_ne_faulted hf hf (Memory.writeList_wf _ b h.mem_wf) rfl rfl rfl rfl

theorem hostCommand_keeps_inv (h : s.Inv) (c : HostCommand) : (hostCommand c s).Inv := by
  rcases hostCommand_cases c s with ⟨-, hc⟩ | ⟨-, hc⟩ | ⟨hf, -, hc⟩ | ⟨hf, a, b, -, hc⟩ | ⟨hf, i, v, -, hc⟩ |
    ⟨hf, v, -, hc⟩ | ⟨-, r, hc⟩
  all_goals rw [hc]
  · exact resetMeetsInvariant.of_sameCore ⟨rfl, rfl, rfl, rfl, rfl, rfl⟩
  · exact h.respond _
  · exact h.of_ne_faulted hf FsmState.noConfusion h.mem_wf rfl rfl rfl rfl
  · exact h.load hf a b
  · exact h.of_ne_faulted hf hf h.mem_wf rfl rfl rfl rfl
  · exact h.of_ne_faulted hf hf h.mem_wf rfl rfl rfl rfl
  · exact h.respond r

theorem hostStep_keeps_inv (h : s.Inv) : (hostStep s).Inv := by
  cases hp : s.host.pending with
  | nil => rwa [hostStep_nil hp]
  | cons c rest =>
    have htaken : State.Inv { s with host := ⟨rest, s.host.responses⟩ } :=
      h.of_sameCore ⟨rfl, rfl, rfl, rfl, rfl, rfl⟩
    rw [hostStep_cons hp]
    exact hostCommand_keeps_inv htaken c

/-- Settles O3: an instruction step when RUNNING, a host command when not. -/
theorem stepKeepsInvariant : Obligations.StepKeepsInvariant := by
  intro s t h hstep
  by_cases hr : s.status.state = .running
  · obtain ⟨u, hu, rfl⟩ := step_running_cases hr hstep
    exact (instructionStep_keeps_inv h hr hu).of_sameCore u.sameCore_endRun
  · rw [step_stopped hr] at hstep
    cases hstep
    exact hostStep_keeps_inv h

/-- With sp in its legal range a step answers, whatever the FSM state. -/
theorem step_answers (hsp : s.sp.toNat ≤ 16) : ∃ t, step s = .next t := by
  by_cases hr : s.status.state = .running
  · exact step_running_answers hr hsp
  · exact ⟨_, step_stopped hr⟩

/-- Settles O4: the invariant keeps sp in its legal range. -/
theorem invariantStateAlwaysSteps : Obligations.InvariantStateAlwaysSteps :=
  fun _ h => step_answers h.sp_le

end Sys2Proof.Machine
end

section
/-! Sequences of instructions, and what they leave of the stack (spec/10_state.md sections 3 and 6, 42_stack.md sections 3
and 4): the frame of one instruction, stack entries that are not live, and nested CALLs and RETURNs. -/

namespace Sys2Proof.Machine

variable {s s' t : State}

/-! ## The frame of one instruction (10_state R21, R34; 42_stack R165) -/

/-- Settles O30, by everything an instruction can do: each outcome writes only what its row names. -/
theorem everyInstructionKeepsItsFrame : Obligations.EveryInstructionKeepsItsFrame := by
  intro i s t h
  rcases exec_cases h with ⟨rfl, rfl⟩ | ⟨x, y, rfl, rfl⟩ | ⟨nnn, rfl, hlt, rfl⟩ | ⟨nnn, rfl, hfull, rfl⟩ |
    ⟨rfl, hpos, -, rfl⟩ | ⟨rfl, hempty, rfl⟩ | ⟨w, rfl, rfl⟩
  · simp
  · have hregs : ∀ r : Nibble, r ≠ x ∧ r ≠ 15 → (s.writeResultAndFlag x (aluSum (s.reg x) (s.reg y))
        (flagByte (aluCarry (s.reg x) (s.reg y)))).reg r = s.reg r :=
      fun r ⟨hx, hf⟩ => State.otherReg_writeResultAndFlag s _ _ hx hf
    simpa using hregs
  · have hentries : ∀ j : Nibble, j.toNat ≠ s.sp.toNat → (s.push s.pc).entry j = s.entry j :=
      fun j hj => by rw [State.entry_push_of_lt s.pc j hlt, if_neg hj]
    simpa using hentries
  · simp [hfull]
  · simp
  · simp [hempty]
  · simp

/-! ## sp outside its legal range (93_implementation_defined section 2) -/

/-- Settles O23: neither the full nor the empty stack's test takes such an sp, so the refusal does. -/
theorem unreachableStackPointerIsRefused : Obligations.UnreachableStackPointerIsRefused :=
  fun _ h => ⟨fun nnn => exec_call_of_gt nnn h, exec_ret_of_gt h⟩

/-! ## Entries that are not live (10_state R32) -/

theorem State.AgreeLive.wordAt (h : s.AgreeLive s') : s'.wordAt s'.pc = s.wordAt s.pc := by
  rw [State.wordAt, State.wordAt, h.mem, h.pc]

theorem State.AgreeLive.reg (h : s.AgreeLive s') (i : Nibble) : s'.reg i = s.reg i := by
  simp only [State.reg, h.regs]

/-- An update of anything but the stack and sp, made alike on both sides, keeps the agreement. -/
theorem State.AgreeLive.of_same_stack {t' : State} (h : s.AgreeLive s') (hregs : t'.regs = t.regs)
    (hpc : t'.pc = t.pc) (hmem : t'.mem = t.mem) (hstatus : t'.status = t.status) (hhost : t'.host = t.host)
    (hsp : t.sp = s.sp) (hsp' : t'.sp = s'.sp) (hstack : t.stack = s.stack) (hstack' : t'.stack = s'.stack) :
    t.AgreeLive t' where
  regs := hregs
  pc := hpc
  sp := by rw [hsp, hsp', h.sp]
  mem := hmem
  status := hstatus
  host := hhost
  live := fun j hj => by
    simp only [State.entry, hstack, hstack']
    exact h.live j (hsp ▸ hj)

theorem State.AgreeLive.setPc (h : s.AgreeLive s') (v : Word) : (s.setPc v).AgreeLive (s'.setPc v) :=
  h.of_same_stack h.regs rfl h.mem h.status h.host rfl rfl rfl rfl

theorem State.AgreeLive.advance (h : s.AgreeLive s') : s.advance.AgreeLive s'.advance := by
  rw [State.advance, State.advance, h.pc]
  exact h.setPc _

theorem State.AgreeLive.enter (h : s.AgreeLive s') (f : FsmState) : (s.enter f).AgreeLive (s'.enter f) :=
  h.of_same_stack h.regs h.pc h.mem (by simp [h.status]) h.host rfl rfl rfl rfl

theorem State.AgreeLive.raise (h : s.AgreeLive s') (c : Cause) (w : Word) : (s.raise c w).AgreeLive (s'.raise c w) :=
  h.of_same_stack h.regs h.pc h.mem rfl h.host rfl rfl rfl rfl

theorem State.AgreeLive.writeResultAndFlag (h : s.AgreeLive s') (x : Nibble) (v f : Byte) :
    (s.writeResultAndFlag x v f).AgreeLive (s'.writeResultAndFlag x v f) :=
  h.of_same_stack (by simp [State.writeResultAndFlag, State.setReg, h.regs]) h.pc h.mem h.status h.host rfl rfl rfl rfl

theorem State.AgreeLive.respond (h : s.AgreeLive s') (r : HostResponse) : (s.respond r).AgreeLive (s'.respond r) :=
  h.of_same_stack h.regs h.pc h.mem h.status (by simp [h.host]) rfl rfl rfl rfl

theorem State.AgreeLive.endRun (h : s.AgreeLive s') : (endRun s).AgreeLive (endRun s') := by
  cases hs : s.status.state with
  | running =>
    have hs' : s'.status.state = .running := by rw [h.status, hs]
    rwa [endRun_of_running hs, endRun_of_running hs']
  | idle => simpa [Machine.endRun, h.status, hs] using h
  | halted =>
    have hs' : s'.status.state = .halted := by rw [h.status, hs]
    rw [endRun_of_halted hs, endRun_of_halted hs']
    exact h.respond _
  | faulted =>
    have hs' : s'.status.state = .faulted := by rw [h.status, hs]
    rw [endRun_of_faulted hs, endRun_of_faulted hs', h.status]
    exact h.respond _

/-- A push makes one more entry live and writes that entry, the same on both sides. -/
theorem State.AgreeLive.push (h : s.AgreeLive s') (hlt : s.sp.toNat < 16) (v : Word) :
    (s.push v).AgreeLive (s'.push v) where
  regs := h.regs
  pc := h.pc
  sp := by simp [h.sp]
  mem := h.mem
  status := h.status
  host := h.host
  live := fun j hj => by
    have hlt' : s'.sp.toNat < 16 := by rwa [h.sp]
    rw [State.push_sp_toNat v hlt] at hj
    rw [State.entry_push_of_lt v j hlt, State.entry_push_of_lt v j hlt', h.sp]
    split
    · rfl
    · exact h.live j (by omega)

/-- What a pop returns is a live entry: machines with equal sp and live entries pop alike. -/
theorem State.popData_congr (hsp : t.sp = s.sp) (hlive : ∀ j : Nibble, j.toNat < s.sp.toNat → t.entry j = s.entry j)
    (hpos : 0 < s.sp.toNat) (hle : s.sp.toNat ≤ 16) : t.popData = s.popData := by
  have htop : t.topIndex = s.topIndex := by rw [State.topIndex, State.topIndex, hsp]
  rw [State.popData, State.popData, htop]
  exact hlive _ (by rw [State.topIndex_toNat hpos hle]; omega)

theorem State.AgreeLive.pop (h : s.AgreeLive s') (hpos : 0 < s.sp.toNat) : s.pop.AgreeLive s'.pop where
  regs := h.regs
  pc := h.pc
  sp := by simp [h.sp]
  mem := h.mem
  status := h.status
  host := h.host
  live := fun j hj => by
    rw [State.pop_sp_toNat hpos] at hj
    exact h.live j (by omega)

/-- An instruction does the same on two machines that agree but for entries that are not live. -/
theorem exec_agreeLive {i : Instr} (h : s.AgreeLive s') (hexec : exec i s = .next t) :
    ∃ t', exec i s' = .next t' ∧ t.AgreeLive t' := by
  rcases exec_cases hexec with ⟨rfl, rfl⟩ | ⟨x, y, rfl, rfl⟩ | ⟨nnn, rfl, hlt, rfl⟩ | ⟨nnn, rfl, hfull, rfl⟩ |
    ⟨rfl, hpos, hle, rfl⟩ | ⟨rfl, hempty, rfl⟩ | ⟨w, rfl, rfl⟩
  · exact ⟨_, exec_halt s', h.enter _⟩
  · refine ⟨_, exec_add s' x y, ?_⟩
    rw [h.reg, h.reg]
    exact h.writeResultAndFlag _ _ _
  · refine ⟨_, exec_call_of_lt nnn (by rwa [h.sp]), ?_⟩
    rw [h.pc]
    exact (h.push hlt _).setPc _
  · exact ⟨_, exec_call_of_full nnn (by rwa [h.sp]), h.raise _ _⟩
  · refine ⟨_, exec_ret_of_live (by rwa [h.sp]) (by rwa [h.sp]), ?_⟩
    rw [State.popData_congr h.sp h.live hpos hle]
    exact (h.pop hpos).setPc _
  · exact ⟨_, exec_ret_of_empty (by rwa [h.sp]), h.raise _ _⟩
  · exact ⟨_, exec_unimplemented s' w, h.raise _ _⟩

theorem instructionStep_agreeLive (h : s.AgreeLive s') (hstep : instructionStep s = .next t) :
    ∃ t', instructionStep s' = .next t' ∧ t.AgreeLive t' := by
  rcases instructionStep_cases hstep with ⟨hpc, rfl⟩ | ⟨hpc, hexec⟩
  · refine ⟨_, instructionStep_of_gt (by rwa [h.pc]), ?_⟩
    rw [h.pc]
    exact h.raise _ _
  · rw [instructionStep_of_le (by rwa [h.pc]), h.wordAt]
    exact exec_agreeLive h.advance hexec

/-- Settles O50: both machines fetch the same word, and its instruction reads only live entries. -/
theorem staleStackEntriesAreNeverObserved : Obligations.StaleStackEntriesAreNeverObserved := by
  intro s s' t h hr _ hstep
  obtain ⟨u, hu, rfl⟩ := step_running_cases hr hstep
  obtain ⟨u', hu', hagree⟩ := instructionStep_agreeLive h hu
  exact ⟨_, step_running_next (by rw [h.status, hr]) hu', hagree.endRun⟩

/-! ## A CALL run past its own address (42_stack R163) -/

/-- The machine after a CALL below a full stack: it pushed the address after its own and jumped. -/
def State.called (s : State) (nnn : Addr) : State :=
  (s.advance.push (s.pc + 2)).setPc (jumpTarget nnn)

theorem exec_call_advance (nnn : Addr) (hlt : s.sp.toNat < 16) : exec (.call nnn) s.advance = .next (s.called nnn) :=
  exec_call_of_lt (s := s.advance) nnn hlt

/-- A CALL that leaves the machine RUNNING found room on the stack. -/
theorem exec_call_advance_running {nnn : Addr} (h : exec (.call nnn) s.advance = .next t)
    (hr : t.status.state = .running) : s.sp.toNat < 16 ∧ t = s.called nnn := by
  rcases lt_trichotomy s.sp.toNat 16 with hs | hs | hs
  · rw [exec_call_advance nnn hs] at h; cases h; exact ⟨hs, rfl⟩
  · rw [exec_call_of_full (s := s.advance) nnn hs] at h; cases h; cases hr
  · rw [exec_call_of_gt (s := s.advance) nnn hs] at h; cases h

theorem State.called_sp_toNat (nnn : Addr) (hlt : s.sp.toNat < 16) : (s.called nnn).sp.toNat = s.sp.toNat + 1 :=
  State.push_sp_toNat (s := s.advance) (s.pc + 2) hlt

@[simp] theorem State.called_status (nnn : Addr) : (s.called nnn).status = s.status := rfl

/-- A CALL writes the entry numbered sp and no other. -/
theorem State.called_entry (nnn : Addr) (j : Nibble) (hlt : s.sp.toNat < 16) :
    (s.called nnn).entry j = if j.toNat = s.sp.toNat then s.pc + 2 else s.entry j :=
  State.entry_push_of_lt (s := s.advance) _ j hlt

/-- A CALL leaves the address after its own on top of the stack. -/
theorem State.called_popData (nnn : Addr) (hlt : s.sp.toNat < 16) : (s.called nnn).popData = s.pc + 2 := by
  have hsp := State.called_sp_toNat nnn hlt
  have htop : (s.called nnn).topIndex.toNat = s.sp.toNat := by
    rw [State.topIndex_toNat (by omega) (by omega)]
    omega
  rw [State.popData, State.called_entry nnn _ hlt, if_pos htop]

/-- The RETURN of a CALL leaves sp as the CALL found it. -/
theorem State.called_sp_sub_one (nnn : Addr) : (s.called nnn).sp - 1 = s.sp := by
  simp [State.called]

/-- A sequence's first RETURN with a live entry. -/
theorem runInstrs_ret_cons (is : List Instr) (hr : s.status.state = .running) (hpos : 0 < s.sp.toNat)
    (hle : s.sp.toNat ≤ 16) : runInstrs (.ret :: is) s = runInstrs is (s.advance.pop.setPc s.popData) :=
  runInstrs_cons (exec_ret_of_live (s := s.advance) hpos hle) hr

/-! ## Nested CALLs and a CALL with its RETURN (42_stack R166) -/

/-- CALLs that the stack has room for all go through, each with one more entry. -/
theorem runInstrs_calls (targets : List Addr) (hr : s.status.state = .running)
    (hroom : s.sp.toNat + targets.length ≤ 16) :
    ∃ t, runInstrs (targets.map .call) s = some t ∧ t.sp.toNat = s.sp.toNat + targets.length ∧ t.status = s.status := by
  induction targets generalizing s with
  | nil => exact ⟨s, rfl, rfl, rfl⟩
  | cons nnn rest ih =>
    rw [List.length_cons] at hroom
    have hlt : s.sp.toNat < 16 := by omega
    have hsp := State.called_sp_toNat nnn hlt
    obtain ⟨t, ht, htsp, hstatus⟩ := ih (s := s.called nnn) hr (by omega)
    refine ⟨t, (runInstrs_cons (exec_call_advance nnn hlt) hr).trans ht, ?_, hstatus⟩
    rw [htsp, hsp, List.length_cons]
    omega

/-- Settles O25: sixteen CALLs fill the empty stack, and a CALL on a full one overflows. -/
theorem seventeenthNestedCallOverflows : Obligations.SeventeenthNestedCallOverflows := by
  intro targets s hlen hr hempty
  obtain ⟨t, ht, hsp, hstatus⟩ := runInstrs_calls targets hr (by omega)
  rw [hempty, Nat.zero_add] at hsp
  refine ⟨t, ht, hsp, hstatus, fun hfull nnn => ?_⟩
  exact ⟨_, exec_call_of_full (s := t.advance) nnn (hsp.trans hfull), rfl, rfl, rfl⟩

/-- Settles O24: the RETURN pops the entry the CALL pushed, and leaves it in place. -/
theorem callThenReturnComesBack : Obligations.CallThenReturnComesBack := by
  intro nnn s hr hlt
  have hsp := State.called_sp_toNat nnn hlt
  have hpushed : (s.called nnn).entry (BitVec.ofNat 4 s.sp.toNat) = s.pc + 2 := by
    have hj : (BitVec.ofNat 4 s.sp.toNat).toNat = s.sp.toNat := by rw [BitVec.toNat_ofNat]; omega
    rw [State.called_entry nnn _ hlt, if_pos hj]
  have hcall : ∀ is, runInstrs (.call nnn :: is) s = runInstrs is (s.called nnn) :=
    fun is => runInstrs_cons (exec_call_advance nnn hlt) hr
  have hret := runInstrs_ret_cons (s := s.called nnn) [] hr (by omega) (by omega)
  exact ⟨_, _, hcall [], rfl, hsp, hpushed, (hcall [.ret]).trans hret, State.called_popData nnn hlt,
    State.called_sp_sub_one nnn, hpushed, rfl, rfl⟩

/-! ## Balanced bodies (42_stack R166) -/

/-- What a sequence that completes did up to a place in it. -/
theorem runInstrs_append_some {is js : List Instr} {u : State} (h : runInstrs (is ++ js) s = some u) :
    ∃ t, runInstrs is s = some t ∧ runInstrs js t = some u := by
  induction is generalizing s with
  | nil => exact ⟨s, rfl, h⟩
  | cons i is ih =>
    obtain ⟨v, hv, hr, hrest⟩ := runInstrs_cons_some h
    obtain ⟨t, ht, hu⟩ := ih hrest
    exact ⟨t, (runInstrs_cons hv hr).trans ht, hu⟩

/-- What a balanced sequence leaves as its caller had it: sp, every entry below it, memory and status. -/
structure State.KeepsCaller (s t : State) : Prop where
  sp : t.sp = s.sp
  below : ∀ j : Nibble, j.toNat < s.sp.toNat → t.entry j = s.entry j
  mem : t.mem = s.mem
  status : t.status = s.status

theorem State.KeepsCaller.refl (s : State) : s.KeepsCaller s :=
  ⟨rfl, fun _ _ => rfl, rfl, rfl⟩

theorem State.KeepsCaller.trans {u : State} (h : s.KeepsCaller t) (h' : t.KeepsCaller u) : s.KeepsCaller u where
  sp := h'.sp.trans h.sp
  below := fun j hj => (h'.below j (by rwa [h.sp])).trans (h.below j hj)
  mem := h'.mem.trans h.mem
  status := h'.status.trans h.status

/-- A CALL, a body that keeps its caller's state and a RETURN come back to the address after the CALL, with the state of
their own caller kept. -/
theorem call_body_ret_keepsCaller {nnn : Addr} {body rest : List Instr} {u : State}
    (hbody : ∀ v w : State, v.status.state = .running → runInstrs body v = some w → v.KeepsCaller w)
    (h : runInstrs (.call nnn :: (body ++ .ret :: rest)) s = some u) :
    ∃ t, runInstrs rest t = some u ∧ t.pc = s.pc + 2 ∧ s.KeepsCaller t := by
  obtain ⟨v, hcall, hvr, hv⟩ := runInstrs_cons_some h
  obtain ⟨hlt, rfl⟩ := exec_call_advance_running hcall hvr
  obtain ⟨w, hw, hret⟩ := runInstrs_append_some hv
  obtain ⟨hsp, hbelow, hmem, hstatus⟩ := hbody _ w hvr hw
  have hcalled := State.called_sp_toNat nnn hlt
  have hpop : w.popData = s.pc + 2 :=
    (State.popData_congr hsp hbelow (by omega) (by omega)).trans (State.called_popData nnn hlt)
  rw [runInstrs_ret_cons rest (by rwa [hstatus]) (by rw [hsp]; omega) (by rw [hsp]; omega)] at hret
  refine ⟨_, hret, hpop, ?sp, fun j hj => ?below, hmem, hstatus⟩
  case sp => rw [State.setPc_sp, State.pop_sp, State.advance_sp, hsp, State.called_sp_sub_one]
  case below =>
    have hother := hbelow j (by omega)
    rwa [State.called_entry nnn j hlt, if_neg (by omega)] at hother

/-- A balanced sequence that completes keeps its caller's state, by induction on how it is balanced. -/
theorem Balanced.keepsCaller {body : List Instr} (hb : Balanced body) (hr : s.status.state = .running)
    (h : runInstrs body s = some t) : s.KeepsCaller t := by
  induction hb generalizing s t with
  | nil => cases h; exact .refl s
  | add x y b _ ih =>
    obtain ⟨v, hadd, hvr, hrest⟩ := runInstrs_cons_some h
    have hkeeps : s.KeepsCaller v := by
      rw [exec_add] at hadd
      cases hadd
      exact ⟨rfl, fun _ _ => rfl, rfl, rfl⟩
    exact hkeeps.trans (ih hvr hrest)
  | nest nnn a b _ _ iha ihb =>
    obtain ⟨u, hu, -, hkeeps⟩ := call_body_ret_keepsCaller (fun _ _ => iha) h
    exact hkeeps.trans (ihb (by rw [hkeeps.status, hr]) hu)

/-- Settles O26: the body keeps the entry that the CALL pushed, and the RETURN takes it as pc. -/
theorem balancedBodyReturnsToTheCaller : Obligations.BalancedBodyReturnsToTheCaller := by
  intro body hb nnn s t hr h
  obtain ⟨u, hu, hpc, hsp, hbelow, hmem, hstatus⟩ := call_body_ret_keepsCaller (fun _ _ => hb.keepsCaller) h
  cases hu
  exact ⟨hpc, hsp, hbelow, hmem, hstatus⟩

end Sys2Proof.Machine
end

section
/-! The status register, the end of a run, and what the host's commands do over one step and over several
(spec/10_state.md section 5, 40_cycle.md section 1, 70_reset_and_hazards.md). -/

namespace Sys2Proof.Machine

variable {s t : State}

/-! ## The status register (10_state R35) -/

/-- The status word as a number: state from bit 0, cause from bit 2, info from bit 8. -/
theorem Status.word_toNat (st : Status) :
    st.word.toNat = st.info.toNat * 256 + st.cause.code.toNat * 4 + st.state.code.toNat := by
  rw [Status.word, toNat_append_eq, toNat_append_eq, toNat_append_eq]
  simp only [BitVec.toNat_ofNat]
  omega

/-- Settles O34: the fields are the digits of the word's number, each within its width. -/
theorem statusWordLayout : Obligations.StatusWordLayout := by
  refine ⟨fun st => ?_, rfl, rfl, rfl, rfl⟩
  have hstate := st.state.code.isLt
  have hcause := st.cause.code.isLt
  rw [Status.word_toNat]
  omega

/-! ## The end of a run and the host's commands (70_reset_and_hazards R242, R246, R250) -/

/-- Settles O14, by the state that the instruction left. -/
theorem endOfRunOnlyAnswersTheHost : Obligations.EndOfRunOnlyAnswersTheHost :=
  fun _ => ⟨endRun_of_running, endRun_of_halted, endRun_of_faulted⟩

/-- A stopped machine's step performs the oldest pending command. -/
theorem step_of_pending {c : HostCommand} {rest : List HostCommand} (hr : s.status.state ≠ .running)
    (hp : s.host.pending = c :: rest) :
    step s = .next (hostCommand c { s with host := ⟨rest, s.host.responses⟩ }) := by
  rw [step_stopped hr, hostStep_cons hp]

/-- Settles O36: a stopped machine's step is the host's. -/
theorem stoppedStepPerformsTheOldestCommand : Obligations.StoppedStepPerformsTheOldestCommand :=
  fun _ hr => ⟨fun hnil => by rw [step_stopped hr, hostStep_nil hnil], fun _ _ hp => step_of_pending hr hp⟩

/-- Settles O43, command by command: each is guarded alike. -/
theorem faultedRefusesChanges : Obligations.FaultedRefusesChanges := by
  rintro s c hf (⟨a, b, rfl⟩ | ⟨i, v, rfl⟩ | ⟨v, rfl⟩ | rfl)
  · exact State.unlessFaulted_of_faulted (s.load a b) hf
  · exact State.unlessFaulted_of_faulted ((s.setReg i v).respond .ok) hf
  · exact State.unlessFaulted_of_faulted ((s.setPc v).respond .ok) hf
  · exact hostCommand_run_of_faulted hf

/-- Settles O51: construction takes the host's port over as it is, and the response ok comes after it. -/
theorem hostResetKeepsTheHostsPort : Obligations.HostResetKeepsTheHostsPort :=
  fun _ hr => ⟨rfl, fun _ hp => ⟨_, step_of_pending hr hp, reset_sameCore_hostCommand_reset _, rfl⟩⟩

/-! ## Several steps -/

/-- A stopped machine's next command, and the steps after it. -/
theorem steps_succ_of_pending {c : HostCommand} {rest : List HostCommand} (n : Nat) (hr : s.status.state ≠ .running)
    (hp : s.host.pending = c :: rest) :
    steps (n + 1) s = steps n (hostCommand c { s with host := ⟨rest, s.host.responses⟩ }) :=
  steps_succ_of_next n (step_of_pending hr hp)

/-- One step more at the end of several. -/
theorem steps_succ_of_steps {n : Nat} {u : State} (h : steps n s = some u) (hu : step u = .next t) :
    steps (n + 1) s = some t := by
  induction n generalizing s with
  | zero => cases h; exact steps_succ_of_next 0 hu
  | succ n ih =>
    obtain ⟨v, hv, hrest⟩ := steps_succ_some h
    exact (steps_succ_of_next (n + 1) hv).trans (ih hrest)

/-! ## A run after HALT (40_cycle R101, 70_reset_and_hazards R246) -/

/-- A RUNNING machine that fetches HALT's word enters HALTED and answers the run. -/
theorem step_of_halt_word (hr : s.status.state = .running) (hpc : s.pc.toNat ≤ 0x0FFE) (hw : s.wordAt s.pc = 0x0000) :
    step s = .next ((s.advance.enter .halted).respond .halted) := by
  have hexec : exec (decode (s.wordAt s.pc)) s.advance = .next (s.advance.enter .halted) := by
    rw [(decode_eq_halt_iff _).mpr hw, exec_halt]
  rw [step_of_exec_next hr hpc hexec, endRun_of_halted rfl]

/-- Entering the state a machine is in changes nothing. -/
theorem State.enter_self {f : FsmState} (h : s.status.state = f) : s.enter f = s := by
  subst h; rfl

/-- HALT and a pending run come back to RUNNING, two further, with the answer to the run that ended. -/
theorem steps_two_of_halt_run {rest : List HostCommand} (hr : s.status.state = .running) (hpc : s.pc.toNat ≤ 0x0FFE)
    (hw : s.wordAt s.pc = 0x0000) (hp : s.host.pending = .run :: rest) :
    steps 2 s = some { s with pc := s.pc + 2, host := ⟨rest, s.host.responses ++ [.halted]⟩ } :=
  calc steps 2 s = steps 1 ((s.advance.enter .halted).respond .halted) :=
        steps_succ_of_next 1 (step_of_halt_word hr hpc hw)
    _ = some (State.enter { s with pc := s.pc + 2, host := ⟨rest, s.host.responses ++ [.halted]⟩ } .running) :=
        steps_succ_of_pending 0 (s := (s.advance.enter .halted).respond .halted) FsmState.noConfusion hp
    _ = some { s with pc := s.pc + 2, host := ⟨rest, s.host.responses ++ [.halted]⟩ } :=
        congrArg some (State.enter_self hr)

/-- Settles O28: the run starts at the advanced pc, which after a HALT at 0x0FFE cannot be fetched from. -/
theorem runAfterHaltContinues : Obligations.RunAfterHaltContinues := by
  intro s rest hr hpc hw hp
  have htwo := steps_two_of_halt_run hr hpc hw hp
  refine ⟨⟨_, htwo, rfl, rfl, rfl, rfl, rfl, rfl, rfl⟩, fun hlast => ?_⟩
  have hend : s.pc + 2 = 0x1000 := by
    apply BitVec.eq_of_toNat_eq
    rw [BitVec.toNat_add, hlast]; rfl
  have hgt : 0x0FFE < (s.pc + 2).toNat := by rw [hend]; decide
  refine ⟨_, steps_succ_of_steps htwo (step_of_pc_out_of_range hr hgt), ?_, ?_⟩
  · rw [endRun_status]
    exact congrArg (Status.mk .faulted .fetchOutOfRange) hend
  · rw [endRun_pc]
    exact hend

/-! ## Boot (70_reset_and_hazards R249) -/

theorem load_of_le {a : Nat} {b : List Byte} (h : a + b.length ≤ 4096) :
    s.load a b = ({ s with mem := s.mem.writeList (BitVec.ofNat 12 a) b }).respond .ok := by
  rcases load_cases s a b with ⟨hgt, -⟩ | ⟨-, hl⟩
  · exact absurd h (Nat.not_le.mpr hgt)
  · exact hl

/-- The RUNNING machine that a load, a write_pc and a run make of a reset one. -/
def booted (a : Nat) (b : List Byte) (v : Word) (rest : List HostCommand) : State :=
  { State.reset with
    pc := v
    mem := State.reset.mem.writeList (BitVec.ofNat 12 a) b
    status := ⟨.running, .none, 0⟩
    host := ⟨rest, [.ok, .ok]⟩ }

/-- Boot takes three steps, one for each command. -/
theorem steps_three_of_boot {a : Nat} {b : List Byte} (v : Word) (rest : List HostCommand) (h : a + b.length ≤ 4096) :
    steps 3 { State.reset with host := ⟨.load a b :: .writePc v :: .run :: rest, []⟩ } = some (booted a b v rest) := by
  rw [steps_succ_of_pending 2 FsmState.noConfusion rfl, hostCommand_load_of_not_faulted a b FsmState.noConfusion,
    load_of_le h, steps_succ_of_pending 1 FsmState.noConfusion rfl,
    hostCommand_writePc_of_not_faulted v FsmState.noConfusion, steps_succ_of_pending 0 FsmState.noConfusion rfl,
    hostCommand_run_of_not_faulted FsmState.noConfusion]
  rfl

/-- Settles O45: the bytes stand in memory as the load wrote them, and reset memory reads 0x00 around them. -/
theorem bootPlacesTheBytesAndRuns : Obligations.BootPlacesTheBytesAndRuns :=
  fun _ _ v rest h => ⟨_, steps_three_of_boot v rest h, rfl, rfl, rfl, rfl, rfl,
    Memory.read_writeList_inside Memory.reset_wf h, Memory.read_writeList_outside Memory.reset_wf h, rfl⟩

/-- Settles O46, by running the two steps. -/
theorem freshMachineHaltsAtOnce : Obligations.FreshMachineHaltsAtOnce :=
  ⟨_, rfl, rfl⟩

/-! ## What changes memory (10_state R34, 20_memory R61) -/

theorem exec_mem {i : Instr} (h : exec i s = .next t) : t.mem = s.mem := by
  rcases exec_cases h with ⟨-, rfl⟩ | ⟨_, _, -, rfl⟩ | ⟨_, -, -, rfl⟩ | ⟨_, -, -, rfl⟩ | ⟨-, -, -, rfl⟩ |
    ⟨-, -, rfl⟩ | ⟨_, -, rfl⟩ <;> rfl

theorem step_running_mem (hr : s.status.state = .running) (h : step s = .next t) : t.mem = s.mem := by
  obtain ⟨u, hu, rfl⟩ := step_running_cases hr h
  rw [endRun_mem]
  rcases instructionStep_cases hu with ⟨-, rfl⟩ | ⟨-, hexec⟩
  · rfl
  · exact exec_mem (s := s.advance) hexec

/-- A command that changes memory is a reset, or a load to a machine that is not FAULTED. -/
theorem hostCommand_mem_ne {c : HostCommand} (h : (hostCommand c s).mem ≠ s.mem) :
    c = .reset ∨ ∃ a b, c = .load a b ∧ s.status.state ≠ .faulted := by
  rcases hostCommand_cases c s with ⟨hc, -⟩ | ⟨-, hc⟩ | ⟨-, -, hc⟩ | ⟨hf, a, b, hc, -⟩ | ⟨-, i, v, -, hc⟩ |
    ⟨-, v, -, hc⟩ | ⟨-, r, hc⟩
  case inl => exact .inl hc
  case inr.inr.inr.inl => exact .inr ⟨a, b, hc, hf⟩
  all_goals rw [hc] at h; exact absurd rfl h

/-- Settles O47: no instruction writes memory, and of the host's commands only reset and load do. -/
theorem onlyTheHostChangesMemory : Obligations.OnlyTheHostChangesMemory := by
  intro s t h hne
  by_cases hr : s.status.state = .running
  · exact absurd (step_running_mem hr h) hne
  · refine ⟨hr, ?_⟩
    cases hp : s.host.pending with
    | nil =>
      rw [step_stopped hr, hostStep_nil hp] at h
      cases h
      exact absurd rfl hne
    | cons c rest =>
      rw [step_of_pending hr hp] at h
      cases h
      exact ⟨c, rest, rfl, hostCommand_mem_ne (s := { s with host := ⟨rest, s.host.responses⟩ }) hne⟩

/-! ## The canonical form of memory (20_memory section 1; log entry 15) -/

/-- A canonical memory that reads 0x00 everywhere lists no byte. -/
theorem Memory.eq_nil_of_readAt {lo : Nat} {m : Memory} (h : Memory.wfFrom lo m = true) (hread : ∀ a, m.readAt a = 0) :
    m = [] := by
  cases m with
  | nil => rfl
  | cons c rest =>
    obtain ⟨-, -, hv, -⟩ := (Memory.wfFrom_cons lo c.1 c.2 rest).mp h
    exact absurd (by simpa [Memory.readAt] using hread c.1) hv

/-- In a canonical memory nothing below the first listed address reads other than 0x00. -/
theorem Memory.le_of_readAt_ne_zero {lo k a : Nat} {v : Byte} {rest : Memory}
    (h : Memory.wfFrom lo ((k, v) :: rest) = true) (ha : Memory.readAt ((k, v) :: rest) a ≠ 0) : k ≤ a := by
  obtain ⟨-, hk, hv, hrest⟩ := (Memory.wfFrom_cons lo k v rest).mp h
  have hfrom : Memory.wfFrom k ((k, v) :: rest) = true :=
    (Memory.wfFrom_cons k k v rest).mpr ⟨le_rfl, hk, hv, hrest⟩
  by_contra hlt
  exact ha (Memory.readAt_below hfrom (Nat.not_le.mp hlt))

/-- A canonical memory's first listed byte is not 0x00. -/
theorem Memory.readAt_head_ne_zero {lo k : Nat} {v : Byte} {rest : Memory}
    (h : Memory.wfFrom lo ((k, v) :: rest) = true) : Memory.readAt ((k, v) :: rest) k ≠ 0 := by
  obtain ⟨-, -, hv, -⟩ := (Memory.wfFrom_cons lo k v rest).mp h
  simpa [Memory.readAt] using hv

/-- Canonical memories that read alike are equal, by induction on the list: their first addresses are each the lowest
that does not read 0x00, and the rests read alike. -/
theorem Memory.eq_of_readAt {lo lo' : Nat} {m m' : Memory} (h : Memory.wfFrom lo m = true)
    (h' : Memory.wfFrom lo' m' = true) (hread : ∀ a, m.readAt a = m'.readAt a) : m = m' := by
  induction m generalizing lo lo' m' with
  | nil => exact (Memory.eq_nil_of_readAt h' fun a => (hread a).symm).symm
  | cons c rest ih =>
    cases m' with
    | nil => exact Memory.eq_nil_of_readAt h hread
    | cons c' rest' =>
      obtain ⟨k, v⟩ := c
      obtain ⟨k', v'⟩ := c'
      obtain ⟨-, -, -, hrest⟩ := (Memory.wfFrom_cons lo k v rest).mp h
      obtain ⟨-, -, -, hrest'⟩ := (Memory.wfFrom_cons lo' k' v' rest').mp h'
      obtain rfl : k = k' := Nat.le_antisymm
        (Memory.le_of_readAt_ne_zero h (hread k' ▸ Memory.readAt_head_ne_zero h'))
        (Memory.le_of_readAt_ne_zero h' (hread k ▸ Memory.readAt_head_ne_zero h))
      obtain rfl : v = v' := by simpa [Memory.readAt] using hread k
      have hrests : ∀ a, Memory.readAt rest a = Memory.readAt rest' a := by
        intro a
        by_cases hka : k = a
        · rw [Memory.readAt_below hrest (by omega), Memory.readAt_below hrest' (by omega)]
        · simpa [Memory.readAt, hka] using hread a
      rw [ih hrest hrest' hrests]

/-- Settles O48: outside the 4096 addresses canonical memories read 0x00, so they read alike everywhere. -/
theorem canonicalMemoriesReadingAlikeAreEqual : Obligations.CanonicalMemoriesReadingAlikeAreEqual := by
  refine fun m₁ m₂ h₁ h₂ hread => Memory.eq_of_readAt h₁ h₂ fun a => ?_
  by_cases ha : a < 4096
  · have hinside := hread (BitVec.ofNat 12 a)
    rwa [Memory.read, Memory.read, BitVec.toNat_ofNat, Nat.mod_eq_of_lt ha] at hinside
  · rw [Memory.readAt_outside h₁ (Nat.not_lt.mp ha), Memory.readAt_outside h₂ (Nat.not_lt.mp ha)]

end Sys2Proof.Machine
end

section
/-! The seven units against the machine's step (spec/00_scope.md R3; 10_state.md R24, 40_cycle.md R105 and R106,
42_stack.md R160): the core of an instruction step and of each host command, and the ports the host reads through. -/

namespace Sys2Proof.Machine

variable {s t : State} (p : OpenPorts) (cmd : Option HostCommand)

/-! ## The units under one row of the control FSM -/

/-- The units' step when the control FSM drives the row `k`, which is no construction. -/
def unitsDriven (k : ControlOut) (p : OpenPorts) (cmd : Option HostCommand) (s : State) : State :=
  let dec := fields (unitFetch p s).instr
  let r := unitReads p cmd s
  { s with
    regs := registerFile ⟨k.wr, dec.x, aluSum r.raData r.rbData, k.fl, aluCarry r.raData r.rbData,
      k.hostWen, hostIdxPort p.hostIdx cmd, hostDataPort p.hostData cmd⟩ s
    pc := pcMux k.pcSel s.pc dec.nnn (unitStack p cmd s).popData (hostPcPort p.hostPc cmd)
    stack := stackStorage k.push (s.pc + 2) s
    sp := stackPointer k.push k.pop s
    mem := memoryNext k.hostLoad cmd s
    status := statusNext k s.pc (unitFetch p s).instr s.status }

variable {p cmd} in
theorem unitStep_eq_unitsDriven {k : ControlOut} (hk : unitControl p cmd s = k) (hc : k.construct = false) :
    unitStep p cmd s = unitsDriven k p cmd s := by
  subst hk
  simp [unitStep, unitsDriven, hc]

variable {p cmd} in
theorem unitStep_of_construct (h : (unitControl p cmd s).construct = true) :
    unitStep p cmd s = { State.reset with host := s.host } := by
  simp [unitStep, h]

/-- A row that raises nothing and stays in the FSM state keeps the status register. -/
theorem statusNext_of_keep {k : ControlOut} {pc w : Word} {old : Status} (hnext : k.next = old.state)
    (hraised : k.raised = .none) : statusNext k pc w old = old := by
  rw [statusNext, hraised, hnext]

/-- A row that enables no write moves the pc and the status register alone. -/
theorem unitsDriven_no_write (sel : PcSel) (f : FsmState) (c : Cause) :
    unitsDriven { pcSel := sel, next := f, raised := c } p cmd s =
      { s with
        pc := pcMux sel s.pc (fields (unitFetch p s).instr).nnn (unitStack p cmd s).popData (hostPcPort p.hostPc cmd)
        status := statusNext { pcSel := sel, next := f, raised := c } s.pc (unitFetch p s).instr s.status } := by
  simp [unitsDriven, registerFile_off, stackStorage, stackPointer]

/-- The row that holds everything. -/
theorem unitsDriven_hold {f : FsmState} (h : s.status.state = f) :
    unitsDriven { pcSel := .hold, next := f } p cmd s = s := by
  rw [unitsDriven_no_write]
  exact State.enter_self h

/-! ## The units of a RUNNING machine (40_cycle R106) -/

/-- The row of a handler that faults raises its cause and advances (60_exceptions R201–R203). -/
theorem controlOfOp_of_handlerFaults {op : OpTag} (h : s.HandlerFaults op) :
    controlOfOp op s.full s.empty = { pcSel := .seq, next := .faulted, raised := handlerCause op } := by
  rcases h with rfl | ⟨rfl, hsp⟩ | ⟨rfl, hsp⟩
  · rfl
  · rw [State.full_iff.mpr hsp]; rfl
  · rw [State.empty_iff.mpr hsp]; rfl

theorem unitStep_of_gt (hr : s.status.state = .running) (hpc : 0x0FFE < s.pc.toNat) :
    unitStep p cmd s = s.raise .fetchOutOfRange s.pc := by
  rw [unitStep_eq_unitsDriven (unitControl_of_gt p cmd hr hpc) rfl, unitsDriven_no_write]
  rfl

variable {p cmd} in
/-- In range, the units' step is that of the row of the fetched word's op tag. -/
theorem unitStep_of_le {op : OpTag} (hr : s.status.state = .running) (hpc : s.pc.toNat ≤ 0x0FFE)
    (hop : opTag (s.wordAt s.pc) = op) (hc : (controlOfOp op s.full s.empty).construct = false) :
    unitStep p cmd s = unitsDriven (controlOfOp op s.full s.empty) p cmd s := by
  subst hop
  exact unitStep_eq_unitsDriven (unitControl_of_le p cmd hr hpc) hc

theorem unitStep_of_handlerFaults (hr : s.status.state = .running) (hpc : s.pc.toNat ≤ 0x0FFE)
    (h : s.HandlerFaults (opTag (s.wordAt s.pc))) :
    unitStep p cmd s = s.advance.raise (handlerCause (opTag (s.wordAt s.pc))) (s.wordAt s.pc) := by
  have hk := controlOfOp_of_handlerFaults h
  rw [unitStep_of_le hr hpc rfl (by rw [hk]), hk, unitsDriven_no_write, unitFetch_of_le p hpc]
  rcases h with hop | ⟨hop, -⟩ | ⟨hop, -⟩ <;> rw [hop] <;> rfl

theorem unitStep_of_halt (hr : s.status.state = .running) (hpc : s.pc.toNat ≤ 0x0FFE)
    (hop : opTag (s.wordAt s.pc) = .halt) : unitStep p cmd s = s.advance.enter .halted := by
  have hk : controlOfOp .halt s.full s.empty = { pcSel := .seq, next := .halted } := rfl
  rw [unitStep_of_le hr hpc hop rfl, hk, unitsDriven_no_write]
  rfl

theorem unitStep_of_add (hr : s.status.state = .running) (hpc : s.pc.toNat ≤ 0x0FFE)
    (hop : opTag (s.wordAt s.pc) = .add) : unitStep p cmd s =
      s.advance.writeResultAndFlag (fields (s.wordAt s.pc)).x
        (aluSum (s.reg (fields (s.wordAt s.pc)).x) (s.reg (fields (s.wordAt s.pc)).y))
        (flagByte (aluCarry (s.reg (fields (s.wordAt s.pc)).x) (s.reg (fields (s.wordAt s.pc)).y))) := by
  have hk : controlOfOp .add s.full s.empty = { wr := true, fl := true, pcSel := .seq, next := .running } := rfl
  rw [unitStep_of_le hr hpc hop rfl, hk, unitsDriven, unitReads_of_le p cmd hpc, unitFetch_of_le p hpc,
    statusNext_of_keep hr.symm rfl]
  simp only [registerFile_add, memoryNext_off]
  rfl

theorem unitStep_of_call (hr : s.status.state = .running) (hpc : s.pc.toNat ≤ 0x0FFE)
    (hop : opTag (s.wordAt s.pc) = .call) (hlt : s.sp.toNat < 16) :
    unitStep p cmd s = s.called (fields (s.wordAt s.pc)).nnn := by
  have hfull : s.full = false := by rw [← Bool.not_eq_true, State.full_iff]; omega
  have hk : controlOfOp .call s.full s.empty = { push := true, pcSel := .call, next := .running } := by
    rw [hfull]; rfl
  rw [unitStep_of_le hr hpc hop (by rw [hk]), hk, unitsDriven, unitFetch_of_le p hpc, statusNext_of_keep hr.symm rfl]
  simp only [registerFile_off, memoryNext_off]
  rfl

theorem unitStep_of_ret (hr : s.status.state = .running) (hpc : s.pc.toNat ≤ 0x0FFE)
    (hop : opTag (s.wordAt s.pc) = .ret) (hpos : 0 < s.sp.toNat) (hle : s.sp.toNat ≤ 16) :
    unitStep p cmd s = s.advance.pop.setPc s.popData := by
  have hempty : s.empty = false := by rw [← Bool.not_eq_true, State.empty_iff]; omega
  have hk : controlOfOp .ret s.full s.empty = { pop := true, pcSel := .ret, next := .running } := by
    rw [hempty]; rfl
  rw [unitStep_of_le hr hpc hop (by rw [hk]), hk, unitsDriven, unitFetch_of_le p hpc,
    unitStack_popData_of_live p cmd hpos hle, statusNext_of_keep hr.symm rfl]
  simp only [registerFile_off, memoryNext_off]
  rfl

/-- In range, the units make the effect of the fetched word's handler, by the row they are driven with. -/
theorem exec_decode_eq_unitStep (hr : s.status.state = .running) (hsp : s.sp.toNat ≤ 16) (hpc : s.pc.toNat ≤ 0x0FFE) :
    exec (decode (s.wordAt s.pc)) s.advance = .next (unitStep p cmd s) := by
  by_cases hf : s.HandlerFaults (opTag (s.wordAt s.pc))
  · rw [unitStep_of_handlerFaults p cmd hr hpc hf]
    exact exec_of_handlerFaults (s := s.advance) hf
  · cases hop : opTag (s.wordAt s.pc) with
    | unimpl => exact absurd (.inl hop) hf
    | halt => rw [decode_of_opTag_halt hop, unitStep_of_halt p cmd hr hpc hop, exec_halt]
    | add =>
      rw [decode_of_opTag_add hop, unitStep_of_add p cmd hr hpc hop, exec_add]
      rfl
    | call =>
      have hne : s.sp.toNat ≠ 16 := fun hfull => hf (.inr (.inl ⟨hop, hfull⟩))
      have hlt : s.sp.toNat < 16 := by omega
      rw [decode_of_opTag_call hop, unitStep_of_call p cmd hr hpc hop hlt, exec_call_advance _ hlt]
    | ret =>
      have hne : s.sp.toNat ≠ 0 := fun hempty => hf (.inr (.inr ⟨hop, hempty⟩))
      have hpos : 0 < s.sp.toNat := by omega
      rw [decode_of_opTag_ret hop, unitStep_of_ret p cmd hr hpc hop hpos hsp]
      exact exec_ret_of_live (s := s.advance) hpos hsp

theorem instructionStep_eq_unitStep (hr : s.status.state = .running) (hsp : s.sp.toNat ≤ 16) :
    instructionStep s = .next (unitStep p cmd s) := by
  rcases Nat.lt_or_ge 0x0FFE s.pc.toNat with hpc | hpc
  · rw [instructionStep_of_gt hpc, unitStep_of_gt p cmd hr hpc]
  · rw [instructionStep_of_le hpc, exec_decode_eq_unitStep p cmd hr hsp hpc]

/-! ## The units of a stopped machine (40_cycle R101, R105) -/

theorem State.SameCore.symm (h : s.SameCore t) : t.SameCore s :=
  ⟨h.regs.symm, h.pc.symm, h.stack.symm, h.sp.symm, h.mem.symm, h.status.symm⟩

theorem State.SameCore.trans {u : State} (h : s.SameCore t) (h' : t.SameCore u) : s.SameCore u :=
  ⟨h'.regs.trans h.regs, h'.pc.trans h.pc, h'.stack.trans h.stack, h'.sp.trans h.sp, h'.mem.trans h.mem,
    h'.status.trans h.status⟩

/-- In FAULTED every command but reset drives the row that holds everything (70_reset_and_hazards R242). -/
theorem controlStopped_faulted (h : cmd ≠ some .reset) :
    controlStopped .faulted cmd = { pcSel := .hold, next := .faulted } := by
  rcases cmd with - | (-|-|-|-|-|-|-|-|-|-|-)
  case some.reset => exact absurd rfl h
  all_goals rfl

variable {cmd} in
/-- A stopped machine that is driven the row that holds everything stays as it is. -/
theorem unitStep_of_hold (hr : s.status.state ≠ .running)
    (hk : controlStopped s.status.state cmd = { pcSel := .hold, next := s.status.state }) : unitStep p cmd s = s := by
  rw [unitStep_eq_unitsDriven (unitControl_stopped p cmd hr) (by rw [hk]), hk, unitsDriven_hold p cmd rfl]

/-- The units' step for each command that has a move: what the command does, but for its answer. -/
theorem unitStep_load (a : Nat) (b : List Byte) (hr : s.status.state ≠ .running) (hf : s.status.state ≠ .faulted) :
    unitStep p (some (.load a b)) s = { s with mem := (s.load a b).mem } := by
  have hk : controlStopped s.status.state (some (.load a b)) =
      { hostLoad := true, pcSel := .hold, next := s.status.state } := by
    simp [controlStopped, hf]
  rw [unitStep_eq_unitsDriven (unitControl_stopped p _ hr) (by rw [hk]), hk, unitsDriven, statusNext_of_keep rfl rfl]
  simp only [registerFile_off, memoryNext_load]
  rfl

theorem unitStep_writeReg (i : Nibble) (v : Byte) (hr : s.status.state ≠ .running) (hf : s.status.state ≠ .faulted) :
    unitStep p (some (.writeReg i v)) s = s.setReg i v := by
  have hk : controlStopped s.status.state (some (.writeReg i v)) =
      { hostWen := true, pcSel := .hold, next := s.status.state } := by
    simp [controlStopped, hf]
  rw [unitStep_eq_unitsDriven (unitControl_stopped p _ hr) (by rw [hk]), hk, unitsDriven, statusNext_of_keep rfl rfl]
  simp only [registerFile_host, memoryNext_off]
  rfl

theorem unitStep_writePc (v : Word) (hr : s.status.state ≠ .running) (hf : s.status.state ≠ .faulted) :
    unitStep p (some (.writePc v)) s = s.setPc v := by
  have hk : controlStopped s.status.state (some (.writePc v)) = { pcSel := .host, next := s.status.state } := by
    simp [controlStopped, hf]
  rw [unitStep_eq_unitsDriven (unitControl_stopped p _ hr) (by rw [hk]), hk, unitsDriven_no_write,
    statusNext_of_keep rfl rfl]
  rfl

theorem unitStep_run (hr : s.status.state ≠ .running) (hf : s.status.state ≠ .faulted) :
    unitStep p (some .run) s = s.enter .running := by
  have hk : controlStopped s.status.state (some .run) = { pcSel := .hold, next := .running } := by
    simp [controlStopped, hf]
  rw [unitStep_eq_unitsDriven (unitControl_stopped p _ hr) (by rw [hk]), hk, unitsDriven_no_write]
  rfl

theorem unitStep_reset (hr : s.status.state ≠ .running) : unitStep p (some .reset) s = s.construct :=
  unitStep_of_construct (by rw [unitControl_stopped p _ hr]; rfl)

/-- The units make the core of a host command's effect (40_cycle R101, 70_reset_and_hazards R242–R247). -/
theorem hostCommand_sameCore_unitStep (c : HostCommand) (hr : s.status.state ≠ .running) :
    (hostCommand c s).SameCore (unitStep p (some c) s) := by
  by_cases hf : s.status.state = .faulted
  · by_cases hc : c = .reset
    · subst hc
      rw [unitStep_reset p hr]
      exact (State.sameCore_respond s.construct .ok).symm
    · obtain ⟨r, hcmd⟩ := hostCommand_of_faulted hf hc
      rw [hcmd, unitStep_of_hold p hr (by rw [hf]; exact controlStopped_faulted _ (by simpa using hc))]
      exact (s.sameCore_respond r).symm
  · cases c with
    | reset =>
      rw [unitStep_reset p hr]
      exact (State.sameCore_respond s.construct .ok).symm
    | load a b =>
      rw [hostCommand_load_of_not_faulted a b hf, unitStep_load p a b hr hf]
      exact ⟨(load_regs s a b).symm, (load_pc s a b).symm, (load_stack s a b).symm, (load_sp s a b).symm, rfl,
        (load_status s a b).symm⟩
    | writeReg i v =>
      rw [hostCommand_writeReg_of_not_faulted i v hf, unitStep_writeReg p i v hr hf]
      exact ((s.setReg i v).sameCore_respond .ok).symm
    | writePc v =>
      rw [hostCommand_writePc_of_not_faulted v hf, unitStep_writePc p v hr hf]
      exact ((s.setPc v).sameCore_respond .ok).symm
    | run =>
      rw [hostCommand_run_of_not_faulted hf, unitStep_run p hr hf]
      exact ⟨rfl, rfl, rfl, rfl, rfl, rfl⟩
    | readReg | readMem | readPc | readSp | readStack | readStatus =>
      rw [unitStep_of_hold p hr rfl]
      exact (s.sameCore_respond _).symm

/-! ## The units at every step -/

theorem memoryNext_with_host (hostLoad : Bool) (h : HostPort) :
    memoryNext hostLoad cmd { s with host := h } = memoryNext hostLoad cmd s := by
  unfold memoryNext
  split
  · simp only [State.load]; split <;> rfl
  · rfl

/-- No unit sees the host's list of commands and responses: the command comes to them at their ports. -/
theorem unitStep_with_host (h : HostPort) : (unitStep p cmd { s with host := h }).SameCore (unitStep p cmd s) := by
  cases hc : (unitControl p cmd s).construct with
  | true =>
    rw [unitStep_of_construct hc, unitStep_of_construct (s := { s with host := h }) hc]
    exact ⟨rfl, rfl, rfl, rfl, rfl, rfl⟩
  | false =>
    rw [unitStep_eq_unitsDriven rfl hc, unitStep_eq_unitsDriven (s := { s with host := h }) rfl hc]
    exact ⟨rfl, rfl, rfl, rfl, (memoryNext_with_host cmd _ h).symm, rfl⟩

theorem step_sameCore_unitStep (hsp : s.sp.toNat ≤ 16) :
    ∃ t, step s = .next t ∧ t.SameCore (unitStep p s.host.pending.head? s) := by
  by_cases hr : s.status.state = .running
  · exact ⟨_, step_running_next hr (instructionStep_eq_unitStep p _ hr hsp), (State.sameCore_endRun _).symm⟩
  · cases hp : s.host.pending with
    | nil =>
      refine ⟨s, by rw [step_stopped hr, hostStep_nil hp], ?_⟩
      rw [List.head?_nil, unitStep_of_hold p hr rfl]
      exact ⟨rfl, rfl, rfl, rfl, rfl, rfl⟩
    | cons c rest =>
      refine ⟨_, step_of_pending hr hp, ?_⟩
      rw [List.head?_cons]
      exact (hostCommand_sameCore_unitStep p c (s := { s with host := ⟨rest, s.host.responses⟩ }) hr).trans
        (unitStep_with_host p (some c) _)

/-- Settles O49: instruction by instruction and command by command, each row drives what the step does. -/
theorem unitsMakeTheInstructionStep : Obligations.UnitsMakeTheInstructionStep :=
  ⟨fun p cmd _ hr hsp => instructionStep_eq_unitStep p cmd hr hsp,
    fun p _ hr => ⟨fun c => hostCommand_sameCore_unitStep p c hr, unitStep_of_hold p hr rfl⟩,
    fun p _ hsp => step_sameCore_unitStep p hsp⟩

/-! ## The host's read side (10_state R24, 42_stack R160, 70_reset_and_hazards R247) -/

/-- A host read answers what its port carries, and does nothing else. -/
theorem hostCommand_of_unitRead {c : HostCommand} {r : HostResponse} (h : unitRead p (some c) s = some r) :
    hostCommand c s = s.respond r := by
  cases c with
  | reset | load | writeReg | writePc | run => cases h
  | readReg | readMem | readPc | readSp | readStack | readStatus => cases h; rfl

/-- Settles O52: each port carries the element that its index names. -/
theorem hostReadsComeThroughTheUnitsPorts : Obligations.HostReadsComeThroughTheUnitsPorts :=
  fun p _ _ => ⟨fun cmd => ⟨rfl, rfl, unitStack_spOut p cmd⟩, fun i => ⟨unitReads_hostRdata_readReg p i, rfl⟩,
    fun i v => unitReads_hostRdata_writeReg p i v, fun j => ⟨unitStack_hostRdata_readStack p j, rfl⟩, rfl,
    fun _ _ h => hostCommand_of_unitRead p h⟩

end Sys2Proof.Machine
end
